-- ==== Sys2Proof/Word.lean ====
section
/-! DEFINITION. The words of the machine: the byte, and the 32-bit word of two payload variants. -/

namespace Sys2Proof

/-- A byte `b[7:0]`, bit 7 the most significant (00_scope.md, notation). Opcodes, immediates, kind tags and output
units are bytes (R7: OPCODE_BITS = IMM_BITS = KIND_BITS = 8). -/
abbrev Byte := BitVec 8

/-- A 32-bit payload (40_value_stack.md R73: the `u32` and `s32` variants). -/
abbrev Word32 := BitVec 32

end Sys2Proof
end

