-- ==== Sys2Proof/Config.lean ====
section
/-! DEFINITION. What the hardware fixes: the three named opcodes, the one assigned kind tag, the default stack
capacity, and what an unlisted offset of the program buffer holds. Nothing here is a free value: PTR_BITS is the only
parameter the spec leaves open for good, and it is unreachable (00_scope.md R7; log 12). -/

namespace Sys2Proof.Config

/-- The halt sentinel `'h'`, fixed in hardware (42_execution_loop.md R101). -/
abbrev haltSentinel : Byte := 0x68#8

/-- The push-char opcode `'c'` (30_encoding.md R62). -/
abbrev pushcOpcode : Byte := 0x63#8

/-- The emit opcode `'e'` (30_encoding.md R62). -/
abbrev emitOpcode : Byte := 0x65#8

/-- The only assigned kind tag, `'c'`: "character/byte value" (40_value_stack.md R74). -/
abbrev charKind : Byte := 0x63#8

/-- The default of STACK_CAPACITY (00_scope.md R7). The capacity a step uses is the field of the state. -/
abbrev defaultStackCapacity : Nat := 1024

/-- What an offset below PROG_LEN holds when no cell lists it. DESIGN CHOICE, log 2: a convention of how the buffer is
written down, so that every buffer has one form. -/
abbrev unlistedByte : Byte := 0x00#8

end Sys2Proof.Config
end

