-- ==== Sys2Proof/Machine/State.lean ====
section
/-! DEFINITION. The machine's state as plain data: the tuple of 10_state.md R11, and the configuration of R12 that a
step reads. Tagged values, the stop reasons, and the state right after reset. -/

namespace Sys2Proof.Machine

/-- The payload of a tagged value, a discriminated union of five variants (40_value_stack.md R73): reading a payload
under another variant cannot be expressed (R75). Signed variants are held as two's complement patterns (PRESUMED: the
spec marks that as general knowledge, G2; log 11). PTR_BITS is open: a pointer is a number without a width (log 12). -/
inductive Payload where
  | u8 (b : Byte)
  | s8 (b : Byte)
  | u32 (w : Word32)
  | s32 (w : Word32)
  | ptr (p : Nat)
deriving DecidableEq, Repr

/-- The tagged value `Value(k, p)` (40_value_stack.md R73). -/
structure Value where
  /-- The 8-bit discriminant tag. -/
  kind : Byte
  payload : Payload
deriving DecidableEq, Repr

/-- The two FSM states (10_state.md R20). -/
inductive RunState where
  | running
  | halted
deriving DecidableEq, Repr

/-- The halt cause (10_state.md R23). Codes 5 to 7 are reserved and never written: they have no constructor (log 18). -/
inductive Cause where
  /-- `NONE`: the run has not stopped. -/
  | none
  /-- `HALT`: the halt sentinel was fetched, a clean halt. -/
  | halt
  /-- `STACK_UNDERFLOW`: pop or peek with `top = 0`. -/
  | stackUnderflow
  /-- `STACK_OVERFLOW`: push with `top = STACK_CAPACITY`. -/
  | stackOverflow
  /-- `PROGRAM_BOUNDS`: a fetch at an offset at or past PROG_LEN. -/
  | programBounds
deriving DecidableEq, Repr

/-- What stops the machine without a next state. The three faults of 60_exceptions.md R113 are not here: each of them
is a next state with the FSM halted and the cause recorded (R117, 42_execution_loop.md R104). -/
inductive Fault where
  /-- Raised by `step` when the FSM is `HALTED`: "No step is enabled in HALTED" (10_state.md R22). A stuck state, as
  the spec says; safe. -/
  | halted
deriving DecidableEq, Repr

/-- What the model gives no meaning to. -/
inductive Refusal where
  /-- An instruction without a meaning yet: none is left. Safe. -/
  | notModelled (mnemonic : String)
  /-- EMIT of a value whose payload is a pointer: "no meaning: a model refuses it" (41_dispatch.md R94). No instruction
  creates such a value (40_value_stack.md R74). Safe. -/
  | pointerPayload
deriving DecidableEq, Repr

/-- The program buffer's content as (offset, byte) cells (20_memory.md R38, R39). -/
abbrev Memory := List Host.Cell

/-- Everything the spec gives the machine (10_state.md R11, R12). The register `top` has its one home in the length of
`stk` (`State.top`), and `STATUS` is computed from `run` and `cause` (`statusWord`). -/
structure State where
  /-- FSM state (R20). -/
  run : RunState
  /-- Halt-cause register (R23). -/
  cause : Cause
  /-- Instruction pointer: byte offset of the next opcode (R15); a number without a width, as R7 allows. -/
  ip : Nat
  /-- The occupied stack slots, `stk[0]` first (R29, R30); an unoccupied slot holds no value. -/
  stk : List Value
  /-- Output stream since reset, in the order written (R32). -/
  out : List Byte
  /-- Program buffer (R12, 20_memory.md R39): configuration, which no step changes. -/
  prog : Memory
  /-- PROG_LEN (00_scope.md R7): configuration. -/
  progLen : Nat
  /-- STACK_CAPACITY (00_scope.md R7): configuration. -/
  capacity : Nat
deriving DecidableEq, Repr

/-- The stack count register: the "current count of occupied slots" (10_state.md R28). -/
def State.top (s : State) : Nat := s.stk.length

/-- Stack slot `i`, or no value where the slot is unoccupied (10_state.md R29, R30). -/
def State.slot (s : State) (i : Nat) : Option Value := s.stk[i]?

/-- The machine right after reset (10_state.md R36), with nothing loaded (log 3) and the default capacity (log 4). -/
def State.reset : State where
  run := .running
  cause := .none
  ip := 0
  stk := []
  out := []
  prog := []
  progLen := 0
  capacity := Config.defaultStackCapacity

end Sys2Proof.Machine
end

