-- ==== Sys2Proof/Machine/Ops.lean ====
section
/-! DEFINITION. The named operations: the program buffer, the stack primitives with the overflow/underflow detector, the
output port, the instruction pointer, raising a fault and taking it, and committing a handler's result. -/

namespace Sys2Proof.Machine

/-! ## The program buffer (20_memory.md) -/

/-- The byte a buffer holds at an offset, the unlisted byte where no cell lists it (log 2). -/
def Memory.byte : Memory → Nat → Byte
  | [], _ => Config.unlistedByte
  | (c, v) :: m, a => if a = c then v else Memory.byte m a

/-- The canonical form: offsets strictly rising, and no cell holding what an unlisted offset reads as. -/
abbrev Memory.wf (m : Memory) : Prop :=
  m.Pairwise (fun c d => c.1 < d.1) ∧ ∀ c ∈ m, c.2 ≠ Config.unlistedByte

/-- Put a cell in front of cells of higher offsets, or leave it out when it holds the unlisted byte. -/
def Memory.cons (a : Nat) (b : Byte) (m : Memory) : Memory :=
  if b = Config.unlistedByte then m else (a, b) :: m

/-- Place a byte at an offset, keeping the canonical form. Only the host's load uses it: no instruction writes the
buffer (20_memory.md R41). -/
def Memory.write : Memory → Nat → Byte → Memory
  | [], a, b => Memory.cons a b []
  | (c, v) :: m, a, b =>
    if a < c then Memory.cons a b ((c, v) :: m)
    else if a = c then Memory.cons a b m
    else (c, v) :: Memory.write m a b

/-- Bytes placed at consecutive offsets from `a` on, as cells. -/
def Memory.ofBytes : Nat → List Byte → Memory
  | _, [] => []
  | a, b :: bs => Memory.cons a b (Memory.ofBytes (a + 1) bs)

/-- The state's program buffer is written in its one form: canonical cells, none at or past PROG_LEN. -/
abbrev State.progWf (s : State) : Prop :=
  s.prog.wf ∧ ∀ c ∈ s.prog, c.1 < s.progLen

/-! ## Faults raised inside a step (60_exceptions.md) -/

/-- A fault as it is raised, with the `info` of 60_exceptions.md R113. -/
inductive Raised where
  /-- `STACK_UNDERFLOW(top)`. -/
  | stackUnderflow (top : Nat)
  /-- `STACK_OVERFLOW(top)`. -/
  | stackOverflow (top : Nat)
  /-- `PROGRAM_BOUNDS(offset)`: the offset that was read. -/
  | programBounds (offset : Nat)
deriving DecidableEq, Repr

/-- The cause a raised fault records (60_exceptions.md R113). -/
def Raised.cause : Raised → Cause
  | .stackUnderflow _ => .stackUnderflow
  | .stackOverflow _ => .stackOverflow
  | .programBounds _ => .programBounds

/-- The `info` of a raised fault (60_exceptions.md R113); not architectural state (R114). -/
def Raised.info : Raised → Nat
  | .stackUnderflow n => n
  | .stackOverflow n => n
  | .programBounds n => n

/-- What cuts a handler short: a fault of the machine, or a refusal of the model. -/
inductive Stop where
  | raised (r : Raised)
  | refused (q : Refusal)
deriving DecidableEq, Repr

/-- Fault entry, the one way a fault is taken: `run <- HALTED` and `cause <- F`, and nothing else is written
(60_exceptions.md R117). There is no return from it (R120). -/
def takeFault (r : Raised) (s : State) : State :=
  { s with run := .halted, cause := r.cause }

/-- End a step that began in `s`: commit the handler's state, or discard all of it and take the fault
(42_execution_loop.md R104, 60_exceptions.md R117). -/
def finish (s : State) : Except Stop State → Host.Outcome State Fault Refusal
  | .ok s' => .next s'
  | .error (.raised r) => .next (takeFault r s)
  | .error (.refused q) => .refused q

/-! ## Reading the program buffer -/

/-- `MemRead(addr, 1)` with its bounds check (20_memory.md R40). -/
def memRead (s : State) (a : Nat) : Except Stop Byte :=
  if s.progLen ≤ a then .error (.raised (.programBounds a)) else .ok (s.prog.byte a)

/-! ## The stack primitives (40_value_stack.md) -/

/-- `new(capacity)`: the stack's reset, no slot occupied (40_value_stack.md R82). -/
def newStack (s : State) : State := { s with stk := [] }

/-- `push(v)`, checked by the detector before anything is written (40_value_stack.md R76, R79, R80). The returned count
is used by no instruction and dropped (R83). -/
def push (v : Value) (s : State) : Except Stop State :=
  if s.top = s.capacity then .error (.raised (.stackOverflow s.top))
  else .ok { s with stk := s.stk ++ [v] }

/-- `peek()` (40_value_stack.md R78, R81). No instruction calls it. -/
def peek (s : State) : Except Stop Value :=
  match s.stk.getLast? with
  | none => .error (.raised (.stackUnderflow 0))
  | some v => .ok v

/-- `pop()` (40_value_stack.md R77, R81): the slot it leaves is unoccupied and holds no value (10_state.md R30). -/
def pop (s : State) : Except Stop (Value × State) :=
  match s.stk.getLast? with
  | none => .error (.raised (.stackUnderflow 0))
  | some v => .ok (v, { s with stk := s.stk.dropLast })

/-! ## The other writes -/

/-- `OutWrite(b)`: append one byte to the output stream (20_memory.md R43). -/
def outWrite (b : Byte) (s : State) : State := { s with out := s.out ++ [b] }

/-- `ip <- ip + n`, exact (40_value_stack.md R85). -/
def advance (n : Nat) (s : State) : State := { s with ip := s.ip + n }

/-- The clean stop: `run <- HALTED`, `cause <- HALT` (42_execution_loop.md R103). -/
def haltRun (s : State) : State := { s with run := .halted, cause := .halt }

/-- A step is enabled: the FSM is `RUNNING` (10_state.md R22). -/
def enabled (s : State) : Bool := s.run == .running

end Sys2Proof.Machine
end

