-- ==== Sys2Proof/Machine/Control.lean ====
section
/-! DEFINITION. The two instructions that touch no stack slot: NOP and HALT. -/

namespace Sys2Proof.Machine

/-- NOP (41_dispatch.md R95): `ip + 1`. The byte has no effect beyond selecting NOP. -/
def execNop (_op : Byte) (s : State) : Host.Outcome State Fault Refusal :=
  finish s (.ok (advance 1 s))

/-- HALT (42_execution_loop.md R103): stop the run cleanly, `ip` not advanced. -/
def execHalt (s : State) : Host.Outcome State Fault Refusal :=
  finish s (.ok (haltRun s))

end Sys2Proof.Machine
end

