-- ==== Sys2Proof/Machine/Operands.lean ====
section
/-! DEFINITION. The operand forms (30_encoding.md R61): the immediate byte of PUSHC, and the implicit top of stack of
EMIT with its low eight bits. -/

namespace Sys2Proof.Machine

/-- The fetch of the PUSHC immediate at `ip + 1` (41_dispatch.md R91, 30_encoding.md R60). -/
def fetchImm8 (s : State) : Except Stop Byte := memRead s (s.ip + 1)

/-- The character value an immediate byte becomes: kind 0x63, payload the byte unchanged (41_dispatch.md R91). -/
def charValue (b : Byte) : Value := ⟨Config.charKind, .u8 b⟩

/-- `low8(v)` for each payload variant (41_dispatch.md R94). A pointer has no low eight bits: refused. -/
def low8 (v : Value) : Except Stop Byte :=
  match v.payload with
  | .u8 b => .ok b
  | .s8 b => .ok b
  | .u32 w => .ok (w.extractLsb' 0 8)
  | .s32 w => .ok (w.extractLsb' 0 8)
  | .ptr _ => .error (.refused .pointerPayload)

end Sys2Proof.Machine
end

