-- ==== Sys2Proof/Machine/Stack.lean ====
section
/-! DEFINITION. The two dispatched instructions that use the operand stack: PUSHC and EMIT. -/

namespace Sys2Proof.Machine

/-- PUSHC (41_dispatch.md R91, R92): the bounds check of the immediate fetch, then the push with its overflow check,
then `ip + 2`. The immediate is the decoded operand, which in a step is the byte that fetch reads (log 10). -/
def execPushc (imm8 : Byte) (s : State) : Host.Outcome State Fault Refusal :=
  finish s (do
    let _ ← fetchImm8 s
    let s' ← push (charValue imm8) s
    return advance 2 s')

/-- EMIT (41_dispatch.md R93): pop, write the low eight bits to the output port, `ip + 1`. -/
def execEmit (s : State) : Host.Outcome State Fault Refusal :=
  finish s (do
    let (v, s') ← pop s
    let b ← low8 v
    return advance 1 (outWrite b s'))

end Sys2Proof.Machine
end

