-- ==== Sys2Proof/Syntax.lean ====
section
/-! DEFINITION. The instructions: one constructor per row of spec/opcode_table.json. -/

namespace Sys2Proof

/-- The reference instruction set and nothing else (00_scope.md R2, 30_encoding.md R62). -/
inductive Instr where
  /-- HALT, format B1, 0x68: the halt sentinel (42_execution_loop.md R103). -/
  | halt
  /-- PUSHC, format B2, 0x63 then `imm8` (41_dispatch.md R91, 30_encoding.md R60). -/
  | pushc (imm8 : Byte)
  /-- EMIT, format B1, 0x65 (41_dispatch.md R93). -/
  | emit
  /-- NOP, format B1: any other byte, kept as `op` so that no bit of the encoding is lost (41_dispatch.md R95). -/
  | nop (op : Byte)
deriving DecidableEq, Repr

end Sys2Proof
end

