-- ==== Sys2Proof/Machine/Dispatch.lean ====
section
/-! DEFINITION. One arm per instruction, each one direct call of its meaning. -/

namespace Sys2Proof.Machine

/-- What one instruction does to the state. -/
def exec (i : Instr) (s : State) : Host.Outcome State Fault Refusal :=
  match i with
  | .halt => Sys2Proof.Machine.execHalt s
  | .pushc imm8 => Sys2Proof.Machine.execPushc imm8 s
  | .emit => Sys2Proof.Machine.execEmit s
  | .nop op => Sys2Proof.Machine.execNop op s

end Sys2Proof.Machine
end

