-- ==== Sys2Proof/WellFormed.lean ====
section
/-! DEFINITION. Which instructions the encoding can spell: a NOP's byte is none of the three named opcodes. -/

namespace Sys2Proof

/-- The byte is one of the three named opcodes of 30_encoding.md R62. -/
def isNamedOpcode (op : Byte) : Bool :=
  op == Config.pushcOpcode || op == Config.emitOpcode || op == Config.haltSentinel

/-- An instruction is well formed when some bytes spell it: every immediate is legal (30_encoding.md R60), and a NOP
carries one of the 253 unregistered bytes (R62, R95). -/
def Instr.wf : Instr → Bool
  | .halt => true
  | .pushc _ => true
  | .emit => true
  | .nop op => !isNamedOpcode op

end Sys2Proof
end

