-- ==== Sys2Proof/Decode.lean ====
section
/-! DEFINITION. The dispatch controller's table, the decoder (total on any bytes, rejecting by name) and the encoder. -/

namespace Sys2Proof

/-- The handlers the dispatch table can name (10_state.md R34, 41_dispatch.md R88). HALT is not one of them. -/
inductive Handler where
  | pushc
  | emit
  | nop
deriving DecidableEq, Repr

/-- The dispatch table in its construction order: all 256 entries no-op, then the registered handlers written over
them (41_dispatch.md R88). The entry at 0x68 stays the default and is never looked up (90_conflicts.md C2). -/
def dispatchTable : Vector Handler 256 :=
  ((Vector.replicate 256 Handler.nop).set 0x63 .pushc).set 0x65 .emit

/-- Dispatch as a function, total over bytes (41_dispatch.md R90). -/
def dispatch (op : Byte) : Handler :=
  if op = Config.pushcOpcode then .pushc
  else if op = Config.emitOpcode then .emit
  else .nop

/-- How far a handler moves `ip` when it succeeds (41_dispatch.md R89). -/
def Handler.width : Handler → Nat
  | .pushc => 2
  | .emit => 1
  | .nop => 1

/-- Length of an instruction, decided by its opcode byte alone (30_encoding.md R59). -/
def opLength (op : Byte) : Nat :=
  if op = Config.pushcOpcode then 2 else 1

/-- Why bytes spell no instruction. No opcode byte is ever invalid (30_encoding.md R64, R65): only a byte that is not
there can be missing. -/
inductive DecodeError where
  /-- No byte stands at the instruction pointer. -/
  | noOpcode
  /-- A push-char opcode is the last byte: its immediate is missing. -/
  | noImmediate
deriving DecidableEq, Repr

/-- Decode one instruction and give the bytes after it: the halt sentinel is compared first, then the dispatch table
is looked up (30_encoding.md R62, R63, 42_execution_loop.md R102). -/
def decode : List Byte → Except DecodeError (Instr × List Byte)
  | [] => .error .noOpcode
  | op :: rest =>
    if op = Config.haltSentinel then .ok (.halt, rest)
    else
      match dispatch op with
      | .pushc =>
        match rest with
        | [] => .error .noImmediate
        | imm8 :: rest' => .ok (.pushc imm8, rest')
      | .emit => .ok (.emit, rest)
      | .nop => .ok (.nop op, rest)

/-- The bytes of an instruction, lowest offset first (30_encoding.md R58, R62). -/
def encode : Instr → List Byte
  | .halt => [0x68#8]
  | .pushc imm8 => [0x63#8, imm8]
  | .emit => [0x65#8]
  | .nop op => [op]

/-- The opcode byte of an instruction (30_encoding.md R58). -/
def Instr.opcode : Instr → Byte
  | .halt => Config.haltSentinel
  | .pushc _ => Config.pushcOpcode
  | .emit => Config.emitOpcode
  | .nop op => op

/-- The two bytes (the longest instruction) of a number laid out as spec/opcode_table.json numbers bits: bits 7:0 are
the byte at `ip`, bits 15:8 the byte at `ip + 1`; every bit at or above `nbits` is 0. -/
def tableBytes (nbits w : Nat) : List Byte :=
  let v := w % 2 ^ nbits
  [BitVec.ofNat 8 v, BitVec.ofNat 8 (v / 256)]

/-- The instruction the decoder reads from a word of the opcode table; none where it refuses. -/
def decodeTableWord (nbits w : Nat) : Option Instr :=
  match decode (tableBytes nbits w) with
  | .ok (i, _) => some i
  | .error _ => none

end Sys2Proof
end

