-- ==== Sys2Proof/Machine/Fetch.lean ====
section
/-! DEFINITION. Fetching the instruction at `ip`: the bytes of the buffer that stand there, decoded; a byte that does
not exist raises PROGRAM_BOUNDS (42_execution_loop.md R100, 41_dispatch.md R91). -/

namespace Sys2Proof.Machine

/-- The byte at an offset, where the buffer has one. -/
def progByte? (s : State) (a : Nat) : Option Byte :=
  if a < s.progLen then some (s.prog.byte a) else none

/-- The bytes at `ip` and `ip + 1` that exist. Reading the second for a one-byte instruction has no effect
(20_memory.md R49; log 9). -/
def fetchWindow (s : State) : List Byte :=
  [s.ip, s.ip + 1].filterMap (progByte? s)

/-- The instruction at `ip`, or the fault its fetch raises: at `ip` when no opcode stands there, at `ip + 1` when the
immediate of a PUSHC is missing. -/
def fetchInstr (s : State) : Except Stop Instr :=
  match decode (fetchWindow s) with
  | .ok (i, _) => .ok i
  | .error .noOpcode => .error (.raised (.programBounds s.ip))
  | .error .noImmediate => .error (.raised (.programBounds (s.ip + 1)))

end Sys2Proof.Machine
end

