-- ==== Sys2Proof/Machine/Step.lean ====
section
/-! DEFINITION. One step of the machine: one transition of the FSM (00_scope.md R10, 42_execution_loop.md R98, R104). -/

namespace Sys2Proof.Machine

/-- One step: none in `HALTED`; else fetch and decode at `ip`, and run the instruction or take the fetch's fault. -/
def step (s : State) : Host.Outcome State Fault Refusal :=
  if enabled s then
    match fetchInstr s with
    | .ok i => exec i s
    | .error e => finish s (.error e)
  else .fault .halted

/-- The state with the bytes of a table word placed where `step` fetches next: the buffer reaches at least past them,
and a halted machine runs again, as only a reset would make it (log 19). -/
def State.withFetchWord (s : State) (nbits w : Nat) : State :=
  let m := ((tableBytes nbits w).zipIdx s.ip).foldl (fun m c => Memory.write m c.2 c.1) s.prog
  let s' := { s with prog := m, progLen := max s.progLen (s.ip + 2) }
  if enabled s then s' else { s' with run := .running, cause := .none }

end Sys2Proof.Machine
end

