-- ==== Sys2Proof/Machine/Assembler.lean ====
section
/-! DEFINITION. The program image as text and back: the linear sweep that disassembles a byte sequence (30_encoding.md
R68), the assembler's statements and their bytes (R69, R70), and a program as their concatenation (R71). The text of a
statement is in Machine/AsmText.lean. -/

namespace Sys2Proof.Machine

/-- What the sweep finds at one offset: an instruction, or a push-char opcode whose immediate is past the end. -/
inductive SweepItem where
  | instr (i : Instr)
  | missingImmediate
deriving DecidableEq, Repr

/-- A one-byte instruction by its opcode (30_encoding.md R62): every row of the map but PUSHC. -/
def oneByteInstr (op : Byte) : Instr :=
  if op = Config.haltSentinel then .halt
  else if op = Config.emitOpcode then .emit
  else .nop op

/-- The linear sweep from offset 0 (30_encoding.md R68): 0x63 takes the next byte as its immediate and the sweep goes
on two further, every other byte one further. -/
def sweep : List Byte → List SweepItem
  | [] => []
  | [op] => if op = Config.pushcOpcode then [.missingImmediate] else [.instr (oneByteInstr op)]
  | op :: b :: rest =>
    if op = Config.pushcOpcode then .instr (.pushc b) :: sweep rest
    else .instr (oneByteInstr op) :: sweep (b :: rest)

/-- The offsets at which the sweep of a byte sequence that starts at offset `a` decodes an opcode, the offset past the
end included when the sweep reaches it (30_encoding.md R68). -/
def sweepOffsets : Nat → List Byte → List Nat
  | a, [] => [a]
  | a, [op] => if op = Config.pushcOpcode then [a] else [a, a + 1]
  | a, op :: b :: rest =>
    if op = Config.pushcOpcode then a :: sweepOffsets (a + 2) rest
    else a :: sweepOffsets (a + 1) (b :: rest)

/-- The operand of PUSHC and PUTC as the assembler writes it: a number, or a quoted character (30_encoding.md R69). -/
inductive Literal where
  | num (n : Nat)
  | chr (c : Char)
deriving DecidableEq, Repr

/-- The byte a literal stands for: a number 0 to 255, or a character's ASCII code (PRESUMED: the spec marks the codes
as general knowledge, G1; log 20). -/
def Literal.byte? : Literal → Option Byte
  | .num n => if n < 256 then some (BitVec.ofNat 8 n) else none
  | .chr c => if c.toNat < 128 then some (BitVec.ofNat 8 c.toNat) else none

/-- The assembler's statements (30_encoding.md R69) and the pseudo-instruction PUTC (R70), whose operand is PUSHC's. The
operand of `NOP n` and `.byte n` is a number (DESIGN CHOICE, log 20: R69 gives quoted characters for PUSHC only). -/
inductive AsmStmt where
  | pushc (n : Literal)
  | emit
  | halt
  | nop
  | nopByte (n : Nat)
  | byte (n : Nat)
  | putc (n : Literal)
deriving DecidableEq, Repr

/-- The bytes of one statement; none where the assembler refuses it (30_encoding.md R69, R70). -/
def asmBytes : AsmStmt → Option (List Byte)
  | .pushc n => n.byte?.map fun b => encode (.pushc b)
  | .emit => some (encode .emit)
  | .halt => some (encode .halt)
  | .nop => some (encode (.nop 0x00#8))
  | .nopByte n => (Literal.num n).byte?.bind fun b => if isNamedOpcode b then none else some (encode (.nop b))
  | .byte n => (Literal.num n).byte?.map fun b => [b]
  | .putc n => n.byte?.map fun b => encode (.pushc b) ++ encode .emit

/-- The bytes of a program: its statements' bytes in order, the first at offset 0 (30_encoding.md R71). -/
def assemble : List AsmStmt → Option (List Byte)
  | [] => some []
  | st :: sts => (asmBytes st).bind fun bs => (assemble sts).map (bs ++ ·)

/-- How the disassembler prints an instruction: a NOP byte as `NOP n`, 0x00 as `NOP` alone (30_encoding.md R69). -/
def disasm : Instr → AsmStmt
  | .halt => .halt
  | .pushc b => .pushc (.num b.toNat)
  | .emit => .emit
  | .nop op => if op = 0x00#8 then .nop else .nopByte op.toNat

end Sys2Proof.Machine
end

