-- ==== Sys2Proof/Machine/AsmText.lean ====
section
/-! DEFINITION. The assembler's text (30_encoding.md R69): one statement per line, `;` starts a comment, a number in
decimal or `0x` hexadecimal, or a quoted character. Log 20 says what the rule leaves to the reader of a line. -/

namespace Sys2Proof.Machine

/-- A piece of a line: a run of characters, or a quoted character. -/
inductive Token where
  | word (cs : List Char)
  | chr (c : Char)
deriving DecidableEq, Repr

/-- The quotation mark of a quoted character. -/
abbrev quoteMark : Char := Char.ofNat 39

/-- A space or a tab: what separates two words. DESIGN CHOICE, log 20: R69 names no separator. -/
def isBlank (c : Char) : Bool := c == ' ' || c == Char.ofNat 9

/-- The word read so far, last character first, as a token; nothing if no character was read. -/
def wordToken (acc : List Char) : List Token :=
  if acc = [] then [] else [.word acc.reverse]

/-- The tokens of a line. A comment ends it; a quoted character is one token. DESIGN CHOICE, log 20, where R69 is
silent: a quoted character may be a blank or a semicolon; it ends the word read so far, so no blank need stand before it
(`PUSHC'x'`) or after it; a semicolon ends a word likewise (`EMIT;`); and a quotation mark that is not the first of a
quoted character is a character like any other. -/
def tokens : List Char → List Char → List Token
  | [], acc => wordToken acc
  | [c], acc =>
    if c = ';' || isBlank c then wordToken acc else wordToken (c :: acc)
  | [c, d], acc =>
    if c = ';' then wordToken acc
    else if isBlank c then wordToken acc ++ tokens [d] []
    else tokens [d] (c :: acc)
  | c :: d :: e :: rest, acc =>
    if c = ';' then wordToken acc
    else if c = quoteMark && e = quoteMark then wordToken acc ++ .chr d :: tokens rest []
    else if isBlank c then wordToken acc ++ tokens (d :: e :: rest) []
    else tokens (d :: e :: rest) (c :: acc)

/-- The value of a digit in base 10 or 16, hexadecimal digits in either case (DESIGN CHOICE, log 20). -/
def digitValue (base : Nat) (c : Char) : Option Nat :=
  let n := c.toNat
  let v := if 48 ≤ n && n ≤ 57 then n - 48
    else if 97 ≤ n && n ≤ 102 then n - 87
    else if 65 ≤ n && n ≤ 70 then n - 55
    else base
  if v < base then some v else none

/-- The number that digits spell, the first digit the most significant; none if one is no digit. -/
def digitsValue (base : Nat) : List Char → Nat → Option Nat
  | [], acc => some acc
  | c :: cs, acc => (digitValue base c).bind fun v => digitsValue base cs (acc * base + v)

/-- A number, decimal or `0x` hexadecimal, with at least one digit; leading zeros are allowed (DESIGN CHOICE, log 20). -/
def numberValue : List Char → Option Nat
  | [] => none
  | '0' :: 'x' :: cs => if cs = [] then none else digitsValue 16 cs 0
  | c :: cs => digitsValue 10 (c :: cs) 0

/-- An operand of PUSHC or PUTC. -/
def literalOf : Token → Option Literal
  | .chr c => some (.chr c)
  | .word cs => (numberValue cs).map .num

/-- The statement a line's tokens spell; none where they spell none (30_encoding.md R69, R70). DESIGN CHOICE, log 20:
R69 gives the forms of a literal for PUSHC only; the `n` of `NOP n` and `.byte n` is taken in its number forms and not as
a quoted character, names are matched letter for letter, and a line holds nothing beside its statement. -/
def statementOf : List Token → Option AsmStmt
  | [.word ['E', 'M', 'I', 'T']] => some .emit
  | [.word ['H', 'A', 'L', 'T']] => some .halt
  | [.word ['N', 'O', 'P']] => some .nop
  | [.word ['N', 'O', 'P'], .word n] => (numberValue n).map .nopByte
  | [.word ['.', 'b', 'y', 't', 'e'], .word n] => (numberValue n).map .byte
  | [.word ['P', 'U', 'S', 'H', 'C'], n] => (literalOf n).map .pushc
  | [.word ['P', 'U', 'T', 'C'], n] => (literalOf n).map .putc
  | _ => none

/-- The lines of a text; `line` is the line read so far, last character first. DESIGN CHOICE, log 20: R69 says one
statement per line and not what ends a line; a line feed (10) does, or the end of the text, and a carriage return is a
character like any other. -/
def textLines : List Char → List Char → List (List Char)
  | [], line => [line.reverse]
  | c :: cs, line => if c = Char.ofNat 10 then line.reverse :: textLines cs [] else textLines cs (c :: line)

/-- The statements of lines: a line without tokens has none (DESIGN CHOICE, log 20), any other line one. -/
def statementsOf : List (List Char) → Option (List AsmStmt)
  | [] => some []
  | line :: lines =>
    match tokens line [] with
    | [] => statementsOf lines
    | t :: ts => (statementOf (t :: ts)).bind fun st => (statementsOf lines).map (st :: ·)

/-- The program image of an assembler text; none where a line is refused (30_encoding.md R69, R71). -/
def assembleText (text : List Char) : Option (List Byte) :=
  (statementsOf (textLines text [])).bind assemble

end Sys2Proof.Machine
end

