-- ==== Sys2Proof/Machine/Handlers.lean ====
section
/-! DEFINITION. The loop as the spec writes it down (41_dispatch.md R87, 42_execution_loop.md R104): fetch the opcode,
compare it with the sentinel, look the handler up, run it, commit. No decoded instruction appears here: each handler
reads its own operands. An obligation says that `step` is this loop. -/

namespace Sys2Proof.Machine

/-- What a handler of the dispatch table does to the state, its fault or refusal included (41_dispatch.md R87, R91,
R93, R95). -/
def runHandler (h : Handler) (s : State) : Except Stop State :=
  match h with
  | .pushc => do
    let imm8 ← fetchImm8 s
    let s' ← push (charValue imm8) s
    return advance Handler.pushc.width s'
  | .emit => do
    let (v, s') ← pop s
    let b ← low8 v
    return advance Handler.emit.width (outWrite b s')
  | .nop => .ok (advance Handler.nop.width s)

/-- One iteration in `RUNNING`: fetch, halt check, dispatch, handler (42_execution_loop.md R100, R102, R104). -/
def loopBody (s : State) : Except Stop State := do
  let op ← memRead s s.ip
  if op = Config.haltSentinel then return haltRun s
  else runHandler (dispatch op) s

/-- The step function of 42_execution_loop.md R104. -/
def loopStep (s : State) : Host.Outcome State Fault Refusal :=
  match s.run with
  | .halted => .fault .halted
  | .running => finish s (loopBody s)

end Sys2Proof.Machine
end

