-- ==== Sys2Proof/Machine/Flags.lean ====
section
/-! DEFINITION. The status word. The block has no flag and no condition code (10_state.md R14): what the host reads of
`run` and `cause` is the one word STATUS. -/

namespace Sys2Proof.Machine

/-- The one-bit encoding of the FSM state, `HALTED` = 1 (10_state.md R20). -/
def RunState.bit : RunState → BitVec 1
  | .running => 0#1
  | .halted => 1#1

/-- The 3-bit code of a cause (10_state.md R23). -/
def Cause.code : Cause → BitVec 3
  | .none => 0#3
  | .halt => 1#3
  | .stackUnderflow => 2#3
  | .stackOverflow => 3#3
  | .programBounds => 4#3

/-- The read-only word STATUS: bits 7:4 zero, bits 3:1 the cause, bit 0 the FSM state (10_state.md R25). -/
def statusWord (s : State) : Byte := 0#4 ++ s.cause.code ++ s.run.bit

end Sys2Proof.Machine
end

