-- ==== Sys2Proof/Machine/HostPort.lean ====
section
/-! DEFINITION. The host interface (60_exceptions.md R130): load, reset, and reading the state back. These are actions
of the host between steps, not steps of the machine (log 16). -/

namespace Sys2Proof.Machine

/-- Reset, at any time (70_reset_and_hazards.md R131): the values of 10_state.md R36. The program buffer, PROG_LEN and
STACK_CAPACITY are not changed (10_state.md R12). -/
def assertReset (s : State) : State :=
  newStack { s with run := .running, cause := .none, ip := 0, out := [] }

/-- Load a program under reset: all its bytes at offsets `0 .. PROG_LEN-1` and its length, then release reset
(70_reset_and_hazards.md R134, 60_exceptions.md R130). -/
def hostLoad (bytes : List Byte) (s : State) : State :=
  assertReset { s with prog := Memory.ofBytes 0 bytes, progLen := bytes.length }

/-- A block built with a capacity, loaded with a program and released from reset (70_reset_and_hazards.md R134). -/
def boot (capacity : Nat) (bytes : List Byte) : State :=
  hostLoad bytes { State.reset with capacity := capacity }

/-- All bytes of the program buffer, offset 0 first (20_memory.md R39). -/
def programBytes (s : State) : List Byte :=
  (List.range s.progLen).map s.prog.byte

/-- What the host may read at any time (10_state.md R25, 60_exceptions.md R130). -/
structure HostView where
  status : Byte
  ip : Nat
  top : Nat
  slots : List Value
  out : List Byte
deriving DecidableEq, Repr

/-- Reading the block's state, which has no effect on it (60_exceptions.md R130). -/
def hostRead (s : State) : HostView where
  status := statusWord s
  ip := s.ip
  top := s.top
  slots := s.stk
  out := s.out

/-- The result of a run (42_execution_loop.md R111). -/
structure RunResult where
  cause : Cause
  ip : Nat
  top : Nat
  slots : List Value
  out : List Byte
deriving DecidableEq, Repr

/-- The result, once the run has ended: nothing while the FSM is `RUNNING` (42_execution_loop.md R111). -/
def runResult (s : State) : Option RunResult :=
  match s.run with
  | .running => none
  | .halted => some { cause := s.cause, ip := s.ip, top := s.top, slots := s.stk, out := s.out }

/-- The `info` of a fault rebuilt from the state it left (60_exceptions.md R114). -/
def faultInfo (s : State) : Option Nat :=
  match s.cause with
  | .none => none
  | .halt => none
  | .stackUnderflow => some s.top
  | .stackOverflow => some s.top
  | .programBounds => some (if s.ip = s.progLen then s.ip else s.ip + 1)

end Sys2Proof.Machine
end

