-- ==== Sys2Proof/Safety.lean ====
section
/-! DEFINITION. The terms claims use: the invariant of the machine, what bytes stand at an offset, sequences of pushes
and pops, and how the sweep of the bytes ahead says a run will end. -/

namespace Sys2Proof.Machine

/-- The one kind of value the hardware creates: `Value(0x63, u8 b)` (40_value_stack.md R74). -/
abbrev Value.isChar (v : Value) : Prop := ∃ b, v = charValue b

/-- What holds in every reachable state. -/
structure State.Inv (s : State) : Prop where
  /-- The program buffer is written in its one canonical form (log 2). -/
  progWf : s.progWf
  /-- STACK_CAPACITY ≥ 1 (00_scope.md R7). -/
  capacity_pos : 1 ≤ s.capacity
  /-- `ip ≤ PROG_LEN` (10_state.md R17). -/
  ip_le : s.ip ≤ s.progLen
  /-- `top ≤ STACK_CAPACITY` (10_state.md R28). -/
  top_le : s.top ≤ s.capacity
  /-- `run = HALTED` if and only if `cause ≠ NONE` (10_state.md R24). -/
  run_cause : s.run = .halted ↔ s.cause ≠ .none
  /-- Every occupied slot holds a character value (40_value_stack.md R74). -/
  chars : ∀ v ∈ s.stk, v.isChar
  /-- Each value on the stack took two bytes of program, and each output byte three: a PUSHC and an EMIT
  (40_value_stack.md R86). -/
  bytes_used : 2 * s.top + 3 * s.out.length ≤ s.ip

/-- The bytes stand in the program buffer at offset `a` (20_memory.md R39). -/
def State.holdsAt (s : State) (a : Nat) (bs : List Byte) : Prop :=
  ∀ k (h : k < bs.length), memRead s (a + k) = .ok bs[k]

/-- The bytes from `ip` to the end of the program buffer. -/
def State.bytesAhead (s : State) : List Byte := (programBytes s).drop s.ip

/-- `ip` stands where the sweep from offset 0 decodes an opcode, or where it ends (30_encoding.md R68). -/
def State.onSweep (s : State) : Prop := s.ip ∈ sweepOffsets 0 (programBytes s)

/-- The faults of the block (60_exceptions.md R112). -/
def Cause.isFault : Cause → Bool
  | .none => false
  | .halt => false
  | .stackUnderflow => true
  | .stackOverflow => true
  | .programBounds => true

/-- `k` steps, stopping at the first stop: the run of `Host.Core` for this machine, over its own types
(00_scope.md glossary: a run is the sequence of steps). -/
def runFor : Nat → State → Host.Outcome State Fault Refusal
  | 0, s => .next s
  | k + 1, s =>
    match step s with
    | .next s' => runFor k s'
    | .fault f => .fault f
    | .refused q => .refused q

/-- What decides the course of a run: everything but the values on the stack and the bytes of the output
(10_state.md R37: no instruction decides anything on a value it reads). -/
def State.control (s : State) : RunState × Cause × Nat × Nat × Nat × Memory × Nat × Nat :=
  (s.run, s.cause, s.ip, s.top, s.out.length, s.prog, s.progLen, s.capacity)

/-- Push values one after another, the first value first. -/
def pushAll : List Value → State → Except Stop State
  | [], s => .ok s
  | v :: vs, s => (push v s).bind (pushAll vs)

/-- Pop `n` values, giving them in the order popped. -/
def popN : Nat → State → Except Stop (List Value × State)
  | 0, s => .ok ([], s)
  | n + 1, s => (pop s).bind fun p => (popN n p.2).map fun q => (p.1 :: q.1, q.2)

/-- How a run ends, read from the items of the sweep ahead and the number of values on the stack, with no machine run
(70_reset_and_hazards.md R139, 42_execution_loop.md R110). -/
def sweepCause (capacity : Nat) : Nat → List SweepItem → Cause
  | _, [] => .programBounds
  | _, .missingImmediate :: _ => .programBounds
  | _, .instr .halt :: _ => .halt
  | depth, .instr (.nop _) :: items => sweepCause capacity depth items
  | depth, .instr (.pushc _) :: items =>
    if depth = capacity then .stackOverflow else sweepCause capacity (depth + 1) items
  | 0, .instr .emit :: _ => .stackUnderflow
  | depth + 1, .instr .emit :: items => sweepCause capacity depth items

end Sys2Proof.Machine
end

