-- ==== Sys2Proof/Certificates/Slice0/Obligations.lean ====
section
/-! DEFINITION. The statements for the provers. -/

open Sys2Proof Sys2Proof.Machine

/-! ## Encoding -/

/-- Words written out bit by bit from the patterns of 30_encoding.md R58 and R62: `01100011iiiiiiii`, `01100101`,
`01101000`, and three bytes that differ from a named opcode in one bit. -/
def Obligations.WrittenOutWordsDecode : Prop :=
  decode [0b01100011#8, 0b01101000#8, 0b11111111#8] = .ok (.pushc 0x68#8, [0b11111111#8]) ∧
  decode [0b01100101#8] = .ok (.emit, []) ∧
  decode [0b01101000#8] = .ok (.halt, []) ∧
  decode [0b01000011#8] = .ok (.nop 0x43#8, []) ∧
  decode [0b11100011#8] = .ok (.nop 0xE3#8, []) ∧
  decode [0b01100100#8] = .ok (.nop 0x64#8, [])

/-- 41_dispatch.md R88, R90: the table built in its construction order is the dispatch function, and its entries are
the ones listed, 0x68 a default no-op. -/
def Obligations.DispatchTableIsDispatch : Prop :=
  (∀ op : Byte, dispatchTable[op.toNat] = dispatch op) ∧
  dispatch 0x63#8 = .pushc ∧ dispatch 0x65#8 = .emit ∧
  ∀ op : Byte, op ≠ 0x63#8 → op ≠ 0x65#8 → dispatch op = .nop

/-- 30_encoding.md R62: the opcode map, one clause per row, with the bytes that stand after the instruction. -/
def Obligations.DecodeIsTheOpcodeMap : Prop :=
  (∀ (imm8 : Byte) (rest : List Byte), decode (0x63#8 :: imm8 :: rest) = .ok (.pushc imm8, rest)) ∧
  (∀ rest : List Byte, decode (0x65#8 :: rest) = .ok (.emit, rest)) ∧
  (∀ rest : List Byte, decode (0x68#8 :: rest) = .ok (.halt, rest)) ∧
  ∀ (op : Byte) (rest : List Byte), op ≠ 0x63#8 → op ≠ 0x65#8 → op ≠ 0x68#8 →
    decode (op :: rest) = .ok (.nop op, rest)

/-- Decoding and encoding agree in both directions, for every instruction and every operand (30_encoding.md R58, R62):
bytes decode to an instruction exactly when it is well formed and its encoding is what they begin with. -/
def Obligations.DecodeInvertsEncode : Prop :=
  ∀ (bs : List Byte) (i : Instr) (rest : List Byte),
    decode bs = .ok (i, rest) ↔ i.wf = true ∧ bs = encode i ++ rest

/-- 30_encoding.md R64, R65: no opcode byte is refused; the decoder refuses only bytes that are not there. -/
def Obligations.DecodeRefusesOnlyMissingBytes : Prop :=
  ∀ (bs : List Byte) (e : DecodeError),
    decode bs = .error e ↔
      (bs = [] ∧ e = .noOpcode) ∨ (bs = [0x63#8] ∧ e = .noImmediate)

/-- 30_encoding.md R68, R71: the linear sweep of a program image gives back the instructions it was made of. -/
def Obligations.SweepOfEncodedProgram : Prop :=
  ∀ is : List Instr, (∀ i ∈ is, i.wf = true) →
    sweep (is.flatMap encode) = is.map SweepItem.instr

/-- 30_encoding.md R69, R71: assembling what the disassembler prints gives the image back. -/
def Obligations.AssembleOfDisassembly : Prop :=
  ∀ is : List Instr, (∀ i ∈ is, i.wf = true) →
    assemble (is.map disasm) = some (is.flatMap encode)

/-! ## The step -/

/-- 42_execution_loop.md R104: when the bytes at `ip` decode to an instruction, the step is that instruction, with nothing
added around it. That the decoder is given the two bytes at `ip` and `ip + 1` is the model's own reading (DEDUCED,
log 9). -/
def Obligations.StepRunsDecodedInstruction : Prop :=
  ∀ (s : State) (i : Instr) (rest : List Byte),
    s.run = .running → decode (fetchWindow s) = .ok (i, rest) → step s = exec i s

/-- When the encoding of a well-formed instruction stands in the buffer at `ip`, the step is that instruction. -/
def Obligations.StepRunsInstructionAtIp : Prop :=
  ∀ (s : State) (i : Instr),
    s.run = .running → i.wf = true → s.holdsAt s.ip (encode i) → step s = exec i s

/-- 42_execution_loop.md R104: the step is the loop the spec writes down, in every state. -/
def Obligations.StepIsTheSpecLoop : Prop :=
  ∀ s : State, step s = loopStep s

/-- 10_state.md R22: `HALTED` is terminal, no step is enabled there. -/
def Obligations.HaltedHasNoStep : Prop :=
  ∀ s : State, s.run = .halted → step s = .fault .halted

/-- 42_execution_loop.md R98: the transitions out of `RUNNING`. -/
def Obligations.TransitionsOutOfRunning : Prop :=
  ∀ s : State, s.run = .running →
    (s.progLen ≤ s.ip → step s = .next { s with run := .halted, cause := .programBounds }) ∧
    (s.ip < s.progLen → s.prog.byte s.ip = 0x68#8 →
      step s = .next { s with run := .halted, cause := .halt }) ∧
    (s.ip < s.progLen → s.prog.byte s.ip ≠ 0x68#8 → ∀ t, step s = .next t →
      (t.run = .running ∧ t.cause = s.cause) ∨
      (t.run = .halted ∧ t.cause.isFault = true))

/-- 20_memory.md R40: the bounds-checked read. -/
def Obligations.ReadIsBoundsChecked : Prop :=
  ∀ (s : State) (a : Nat),
    (s.progLen ≤ a → memRead s a = .error (.raised (.programBounds a))) ∧
    (a < s.progLen → memRead s a = .ok (s.prog.byte a))

/-- What the host loads is what every fetch reads, and nothing stands past it (20_memory.md R39, 70_reset_and_hazards.md
R134). -/
def Obligations.LoadedProgramReadsBack : Prop :=
  ∀ (n : Nat) (bs : List Byte),
    programBytes (boot n bs) = bs ∧
    (∀ a (h : a < bs.length), memRead (boot n bs) a = .ok bs[a]) ∧
    ∀ a, bs.length ≤ a → memRead (boot n bs) a = .error (.raised (.programBounds a))

/-! ## The stack -/

/-- 40_value_stack.md R76. -/
def Obligations.PushWritesSlotTop : Prop :=
  ∀ (v : Value) (s : State),
    (s.top = s.capacity → push v s = .error (.raised (.stackOverflow s.top))) ∧
    (s.top ≠ s.capacity → ∃ t, push v s = .ok t ∧ t.slot s.top = some v ∧ t.top = s.top + 1 ∧
      (∀ i, i ≠ s.top → t.slot i = s.slot i) ∧ t = { s with stk := t.stk })

/-- 40_value_stack.md R77. -/
def Obligations.PopTakesTopSlot : Prop :=
  ∀ s : State,
    (s.top = 0 → pop s = .error (.raised (.stackUnderflow 0))) ∧
    (s.top ≠ 0 → ∃ v t, pop s = .ok (v, t) ∧ s.slot (s.top - 1) = some v ∧ t.top = s.top - 1 ∧
      (∀ i, i < s.top - 1 → t.slot i = s.slot i) ∧ t = { s with stk := t.stk })

/-- 40_value_stack.md R78. -/
def Obligations.PeekReadsTopSlot : Prop :=
  ∀ s : State,
    (s.top = 0 → peek s = .error (.raised (.stackUnderflow 0))) ∧
    (s.top ≠ 0 → ∃ v, peek s = .ok v ∧ s.slot (s.top - 1) = some v)

/-- 40_value_stack.md R84: pushing values and popping as many gives them back in reverse order and the state as it was;
the pushes go through exactly when there is room for all of them. The premise is the invariant of R28. -/
def Obligations.PushesThenPopsAreLifo : Prop :=
  ∀ (s : State) (vs : List Value), s.top ≤ s.capacity →
    (s.top + vs.length ≤ s.capacity →
      ∃ t, pushAll vs s = .ok t ∧ t.top = s.top + vs.length ∧ popN vs.length t = .ok (vs.reverse, s)) ∧
    (s.capacity < s.top + vs.length →
      pushAll vs s = .error (.raised (.stackOverflow s.capacity)))

/-! ## PUSHC -/

/-- 41_dispatch.md R91: PUSHC completes whenever its immediate is inside the buffer and the stack has room. -/
def Obligations.PushcCompletes : Prop :=
  ∀ (imm8 : Byte) (s : State), s.ip + 1 < s.progLen → s.top ≠ s.capacity →
    exec (.pushc imm8) s = .next { s with stk := s.stk ++ [⟨0x63#8, .u8 imm8⟩], ip := s.ip + 2 }

/-- 41_dispatch.md R91, R92: where PUSHC traps; the missing immediate is reported before the full stack. -/
def Obligations.PushcTraps : Prop :=
  ∀ (imm8 : Byte) (s : State),
    (s.progLen ≤ s.ip + 1 →
      exec (.pushc imm8) s = .next { s with run := .halted, cause := .programBounds }) ∧
    (s.ip + 1 < s.progLen → s.top = s.capacity →
      exec (.pushc imm8) s = .next { s with run := .halted, cause := .stackOverflow })

/-- 41_dispatch.md R91, R92: the whole step of a PUSHC, from its bytes in the buffer. -/
def Obligations.PushcStep : Prop :=
  ∀ s : State, s.run = .running → s.ip < s.progLen → s.prog.byte s.ip = 0x63#8 →
    step s =
      if s.progLen ≤ s.ip + 1 then .next { s with run := .halted, cause := .programBounds }
      else if s.top = s.capacity then .next { s with run := .halted, cause := .stackOverflow }
      else .next { s with stk := s.stk ++ [⟨0x63#8, .u8 (s.prog.byte (s.ip + 1))⟩], ip := s.ip + 2 }

/-- The frame of PUSHC (10_state.md R37): only slot `top`, `top` and `ip` change, or `run` and `cause` on a fault. -/
def Obligations.PushcFrame : Prop :=
  ∀ (imm8 : Byte) (s t : State), exec (.pushc imm8) s = .next t →
    t.out = s.out ∧ t.prog = s.prog ∧ t.progLen = s.progLen ∧ t.capacity = s.capacity ∧
    (∀ i, i ≠ s.top → t.slot i = s.slot i) ∧
    (∀ a, memRead t a = memRead s a) ∧
    ((t.run = s.run ∧ t.cause = s.cause) ∨ t = { s with run := .halted, cause := t.cause })

/-! ## EMIT -/

/-- 41_dispatch.md R93, R94: EMIT completes with the low eight bits of the value on top, for each payload variant that
has them. Two clauses are the model's own: that the kind tag does not matter, not even 0x63 beside another variant than
u8 (DEDUCED, log 13), and the two's complement pattern of the signed variants (PRESUMED, log 11). -/
def Obligations.EmitCompletes : Prop :=
  ∀ (k : Byte) (l : List Value) (s : State),
    (∀ b, s.stk = l ++ [⟨k, .u8 b⟩] →
      exec .emit s = .next { s with stk := l, out := s.out ++ [b], ip := s.ip + 1 }) ∧
    (∀ b, s.stk = l ++ [⟨k, .s8 b⟩] →
      exec .emit s = .next { s with stk := l, out := s.out ++ [b], ip := s.ip + 1 }) ∧
    (∀ w, s.stk = l ++ [⟨k, .u32 w⟩] →
      exec .emit s = .next { s with stk := l, out := s.out ++ [w.setWidth 8], ip := s.ip + 1 }) ∧
    (∀ w, s.stk = l ++ [⟨k, .s32 w⟩] →
      exec .emit s = .next { s with stk := l, out := s.out ++ [w.setWidth 8], ip := s.ip + 1 })

/-- 41_dispatch.md R93: EMIT on an empty stack takes STACK_UNDERFLOW and writes no byte; R94: a pointer payload is
refused by name. -/
def Obligations.EmitStops : Prop :=
  ∀ s : State,
    (s.top = 0 → exec .emit s = .next { s with run := .halted, cause := .stackUnderflow }) ∧
    ∀ (k : Byte) (l : List Value) (p : Nat),
      s.stk = l ++ [⟨k, .ptr p⟩] → exec .emit s = .refused .pointerPayload

/-- 41_dispatch.md R93: the whole step of an EMIT, from its byte in the buffer, for every value on top that has low eight
bits. -/
def Obligations.EmitStep : Prop :=
  ∀ s : State, s.run = .running → s.ip < s.progLen → s.prog.byte s.ip = 0x65#8 →
    (s.top = 0 → step s = .next { s with run := .halted, cause := .stackUnderflow }) ∧
    (∀ (l : List Value) (v : Value) (b : Byte), s.stk = l ++ [v] → low8 v = .ok b →
      step s = .next { s with stk := l, out := s.out ++ [b], ip := s.ip + 1 })

/-- The frame of EMIT (10_state.md R37): only slot `top - 1`, `top`, `out` and `ip` change, or `run` and `cause` on a
fault. -/
def Obligations.EmitFrame : Prop :=
  ∀ s t : State, exec .emit s = .next t →
    t.prog = s.prog ∧ t.progLen = s.progLen ∧ t.capacity = s.capacity ∧
    (∀ i, i + 1 ≠ s.top → t.slot i = s.slot i) ∧
    (∀ a, memRead t a = memRead s a) ∧
    ((t.run = s.run ∧ t.cause = s.cause) ∨ t = { s with run := .halted, cause := t.cause })

/-! ## NOP and HALT -/

/-- 41_dispatch.md R95: NOP completes in every state and for every byte, and only moves `ip`. -/
def Obligations.NopCompletes : Prop :=
  ∀ (op : Byte) (s : State), exec (.nop op) s = .next { s with ip := s.ip + 1 }

/-- 41_dispatch.md R95: the whole step of a NOP, from any of its 253 bytes in the buffer. -/
def Obligations.NopStep : Prop :=
  ∀ s : State, s.run = .running → s.ip < s.progLen →
    s.prog.byte s.ip ≠ 0x63#8 → s.prog.byte s.ip ≠ 0x65#8 → s.prog.byte s.ip ≠ 0x68#8 →
    step s = .next { s with ip := s.ip + 1 }

/-- 42_execution_loop.md R103: HALT completes in every state: `run` and `cause` are written and nothing else; and so does
the step that fetches its byte. -/
def Obligations.HaltStopsCleanly : Prop :=
  (∀ s : State, exec .halt s = .next { s with run := .halted, cause := .halt }) ∧
  ∀ s : State, s.run = .running → s.ip < s.progLen → s.prog.byte s.ip = 0x68#8 →
    step s = .next { s with run := .halted, cause := .halt }

/-- The frame of NOP and HALT (10_state.md R37): no slot, no output byte, no byte of the program; NOP leaves `run` and
`cause`, HALT leaves `ip`. -/
def Obligations.NopHaltFrame : Prop :=
  ∀ (i : Instr) (s t : State), (i = .halt ∨ ∃ op, i = .nop op) → exec i s = .next t →
    t.out = s.out ∧ t.prog = s.prog ∧ t.progLen = s.progLen ∧ t.capacity = s.capacity ∧
    (∀ k, t.slot k = s.slot k) ∧
    (∀ a, memRead t a = memRead s a) ∧
    (i = .halt → t.ip = s.ip) ∧
    ((∃ op, i = .nop op) → t.run = s.run ∧ t.cause = s.cause)

/-! ## Faults -/

/-- 60_exceptions.md R117: a step that raises a fault writes `run` and `cause` and nothing else, and so does every step
that records one; there is no vector and no saved state. The premise on `cause` is the invariant of 10_state.md R24. -/
def Obligations.FaultsArePrecise : Prop :=
  (∀ (s : State) (r : Raised), s.run = .running → loopBody s = .error (.raised r) →
    step s = .next { s with run := .halted, cause := r.cause }) ∧
  ∀ s t : State, s.run = .running → s.cause = .none → step s = .next t → t.cause.isFault = true →
    t = { s with run := .halted, cause := t.cause }

/-- 60_exceptions.md R113, R119: exactly when each fault is recorded. -/
def Obligations.WhenEachFaultIsRecorded : Prop :=
  ∀ s t : State, s.run = .running → s.cause = .none → step s = .next t →
    (t.cause = .stackUnderflow ↔
      s.ip < s.progLen ∧ s.prog.byte s.ip = 0x65#8 ∧ s.top = 0) ∧
    (t.cause = .stackOverflow ↔
      s.ip + 1 < s.progLen ∧ s.prog.byte s.ip = 0x63#8 ∧ s.top = s.capacity) ∧
    (t.cause = .programBounds ↔
      s.progLen ≤ s.ip ∨ (s.ip + 1 = s.progLen ∧ s.prog.byte s.ip = 0x63#8))

/-- 60_exceptions.md R114: the `info` of a fault can be rebuilt from the state it leaves. The premise is the invariant
of 10_state.md R17; at `ip` the loop raised the fault. -/
def Obligations.FaultInfoCanBeRebuilt : Prop :=
  ∀ (s : State) (r : Raised), s.ip ≤ s.progLen → loopBody s = .error (.raised r) →
    faultInfo (takeFault r s) = some r.info

/-! ## Reset, status, host -/

/-- 10_state.md R36: what reset leaves. -/
def Obligations.ResetValues : Prop :=
  State.reset.run = .running ∧ State.reset.cause = .none ∧ State.reset.ip = 0 ∧ State.reset.top = 0 ∧
  (∀ i, State.reset.slot i = none) ∧ State.reset.out = [] ∧ statusWord State.reset = 0x00#8

/-- 70_reset_and_hazards.md R131: reset from any state, running or halted. The last clause says where the next fetch reads
through the model's two-byte window (DEDUCED, log 9); R131 says that the first step fetches the opcode at offset 0. -/
def Obligations.ResetFromAnyState : Prop :=
  ∀ s : State,
    (assertReset s).run = .running ∧ (assertReset s).cause = .none ∧ (assertReset s).ip = 0 ∧
    (assertReset s).top = 0 ∧ (∀ i, (assertReset s).slot i = none) ∧ (assertReset s).out = [] ∧
    (assertReset s).prog = s.prog ∧ (assertReset s).progLen = s.progLen ∧ (assertReset s).capacity = s.capacity ∧
    fetchWindow (assertReset s) = [0, 1].filterMap (progByte? s)

/-- 70_reset_and_hazards.md R133: nothing of an earlier run is left after reset: however many steps a run took, reset
gives the state it would have given before them. -/
def Obligations.ResetForgetsTheRun : Prop :=
  ∀ (n : Nat) (s t : State), runFor n s = .next t → assertReset t = assertReset s

/-- 10_state.md R25: the fields of STATUS. -/
def Obligations.StatusWordFields : Prop :=
  ∀ s : State,
    (statusWord s).extractLsb' 0 1 = (if s.run = .halted then 1#1 else 0#1) ∧
    (statusWord s).extractLsb' 1 3 = s.cause.code ∧
    (statusWord s).extractLsb' 4 4 = 0#4

/-- 10_state.md R23: the codes of the causes; the reserved codes 5 to 7 belong to none. -/
def Obligations.CauseCodes : Prop :=
  Cause.none.code = 0#3 ∧ Cause.halt.code = 1#3 ∧ Cause.stackUnderflow.code = 2#3 ∧
  Cause.stackOverflow.code = 3#3 ∧ Cause.programBounds.code = 4#3 ∧
  ∀ c : Cause, c.code ≠ 5#3 ∧ c.code ≠ 6#3 ∧ c.code ≠ 7#3

/-! ## Invariants and whole-machine rules -/

/-- The invariant holds right after reset. -/
def Obligations.ResetMeetsInvariant : Prop :=
  State.reset.Inv

/-- The invariant holds after any load, for every capacity of at least 1, and reset keeps it. -/
def Obligations.BootAndResetMeetInvariant : Prop :=
  (∀ (n : Nat) (bs : List Byte), 1 ≤ n → (boot n bs).Inv) ∧
  ∀ s : State, s.Inv → (assertReset s).Inv

/-- Every step keeps the invariant, from every state that meets it. -/
def Obligations.StepKeepsInvariant : Prop :=
  ∀ s t : State, s.Inv → step s = .next t → t.Inv

/-- 42_execution_loop.md R104: in `RUNNING` the result of a step is always a next state: under the invariant nothing is
refused. -/
def Obligations.RunningStepHasNextState : Prop :=
  ∀ s : State, s.Inv → s.run = .running → ∃ t, step s = .next t

/-- 42_execution_loop.md R106, R109: a step that stays in `RUNNING` moves `ip` forward, by at most two, and not past the
end of the buffer; a step that stops leaves it. -/
def Obligations.IpOnlyMovesForward : Prop :=
  ∀ s t : State, step s = .next t →
    (t.run = .running → s.ip < t.ip ∧ t.ip ≤ s.ip + 2 ∧ t.ip ≤ s.progLen) ∧
    (t.run = .halted → t.ip = s.ip)

/-- 10_state.md R12, 20_memory.md R41: no step changes the program buffer, its length or the capacity. -/
def Obligations.ConfigurationNeverChanges : Prop :=
  ∀ s t : State, step s = .next t →
    t.prog = s.prog ∧ t.progLen = s.progLen ∧ t.capacity = s.capacity ∧
    ∀ a, memRead t a = memRead s a

/-- 10_state.md R32, 20_memory.md R43: only EMIT appends to the output, one byte a time, and nothing else touches it. -/
def Obligations.OnlyEmitWritesOutput : Prop :=
  ∀ (i : Instr) (s t : State), exec i s = .next t →
    t.out = s.out ∨ (i = .emit ∧ ∃ b, t.out = s.out ++ [b])

/-- 40_value_stack.md R86: an overflow needs a program of at least two bytes for each push that fitted and two for the
one that did not. -/
def Obligations.OverflowNeedsALongProgram : Prop :=
  ∀ s t : State, s.Inv → s.run = .running → step s = .next t → t.cause = .stackOverflow →
    2 * (s.capacity + 1) ≤ s.progLen

/-- 30_encoding.md R68: `ip` stays on the opcode offsets of the sweep from offset 0, and a loaded machine starts on
one. -/
def Obligations.RunStaysOnTheSweep : Prop :=
  (∀ (n : Nat) (bs : List Byte), (boot n bs).onSweep) ∧
  ∀ s t : State, s.onSweep → step s = .next t → t.onSweep

/-- 30_encoding.md R60, R68: the machine executes exactly the linear sweep, none of its items skipped and nothing else
executed. At an opcode offset of the sweep from offset 0, the items ahead are what is left of that sweep; a step in
`RUNNING` executes the first of them, and if it stays in `RUNNING` the items ahead are the ones after it. Where the sweep
has no instruction left, the step takes PROGRAM_BOUNDS. -/
def Obligations.StepExecutesTheNextSweepItem : Prop :=
  (∀ s : State, s.onSweep → ∃ done, sweep (programBytes s) = done ++ sweep s.bytesAhead) ∧
  ∀ s : State, s.run = .running →
    match sweep s.bytesAhead with
    | [] => step s = .next { s with run := .halted, cause := .programBounds }
    | .missingImmediate :: items =>
      items = [] ∧ step s = .next { s with run := .halted, cause := .programBounds }
    | .instr i :: items =>
      step s = exec i s ∧
      ∀ t, step s = .next t → t.run = .running → sweep t.bytesAhead = items

/-- 42_execution_loop.md R109, 70_reset_and_hazards.md R141: every run ends within one step more than the bytes ahead.
The premises are invariants (`State.Inv`). -/
def Obligations.EveryRunEnds : Prop :=
  ∀ s : State, s.run = .running → s.ip ≤ s.progLen → (∀ v ∈ s.stk, v.isChar) →
    ∃ k t, k ≤ s.progLen - s.ip + 1 ∧ runFor k s = .next t ∧ t.run = .halted

/-- 70_reset_and_hazards.md R139, 42_execution_loop.md R110: how a run ends is read off the sweep of the bytes ahead and
the number of values on the stack. The premise on the values is an invariant (`State.Inv`). -/
def Obligations.SweepTellsHowTheRunEnds : Prop :=
  ∀ s : State, s.run = .running → (∀ v ∈ s.stk, v.isChar) →
    ∃ k t, runFor k s = .next t ∧ t.run = .halted ∧
      t.cause = sweepCause s.capacity s.top (sweep s.bytesAhead)

/-- 30_encoding.md R70: a PUSHC followed by an EMIT appends the immediate to the output and leaves the stack as it was,
from any running state whose stack has room. -/
def Obligations.PushcThenEmitOutputsTheByte : Prop :=
  ∀ (s : State) (b : Byte), s.run = .running → s.top ≠ s.capacity →
    s.holdsAt s.ip (encode (.pushc b) ++ encode .emit) →
    runFor 2 s = .next { s with out := s.out ++ [b], ip := s.ip + 3 }

/-- 41_dispatch.md R96: no-op bytes and then the halt byte end the run cleanly with stack and output untouched, from any
running state. -/
def Obligations.NopsThenHaltEndCleanly : Prop :=
  ∀ (s : State) (bs : List Byte), s.run = .running → (∀ b ∈ bs, isNamedOpcode b = false) →
    s.holdsAt s.ip (bs ++ [0x68#8]) →
    runFor (bs.length + 1) s =
      .next { s with run := .halted, cause := .halt, ip := s.ip + bs.length }

/-- 10_state.md R37: the values on the stack and the bytes of the output never decide what happens: two machines that
differ in them alone take the same course. The premises on the values are invariants (`State.Inv`). -/
def Obligations.DataNeverDecidesControl : Prop :=
  ∀ s s' t : State, s.control = s'.control → (∀ v ∈ s.stk, v.isChar) → (∀ v ∈ s'.stk, v.isChar) →
    step s = .next t → ∃ t', step s' = .next t' ∧ t'.control = t.control
end

