-- ==== Sys2Proof/Laws/Memory.lean ====
section
/-! SUPPORT. The program buffer: read after write, and that every operation that makes or changes a buffer keeps the
canonical form. -/

namespace Sys2Proof.Machine

/-- An offset below every cell reads as the unlisted byte. -/
theorem byte_eq_unlisted {m : Memory} {a : Nat} (h : ∀ c ∈ m, c.1 ≠ a) : m.byte a = Config.unlistedByte := by
  induction m with
  | nil => rfl
  | cons c m ih =>
    have hc : a ≠ c.1 := fun e => h c (by simp) e.symm
    simp only [Memory.byte, if_neg hc]
    exact ih fun d hd => h d (by simp [hd])

/-! ## One cell in front -/

theorem mem_cons {a : Nat} {b : Byte} {m : Memory} {c : Host.Cell} (h : c ∈ m.cons a b) : c = (a, b) ∨ c ∈ m := by
  unfold Memory.cons at h
  split at h
  · exact .inr h
  · exact List.mem_cons.mp h

theorem cons_wf {a : Nat} {b : Byte} {m : Memory} (hm : m.wf) (h : ∀ c ∈ m, a < c.1) : (m.cons a b).wf := by
  unfold Memory.cons
  split
  · exact hm
  · rename_i hb
    exact ⟨List.pairwise_cons.mpr ⟨h, hm.1⟩, by simpa [hb] using fun c d hc => hm.2 (c, d) hc⟩

theorem byte_cons {a : Nat} {b : Byte} {m : Memory} (h : ∀ c ∈ m, a < c.1) (x : Nat) :
    (m.cons a b).byte x = if x = a then b else m.byte x := by
  unfold Memory.cons
  split
  · rename_i hb
    split
    · rename_i hx
      rw [hx, byte_eq_unlisted fun c hc => (h c hc).ne', hb]
    · rfl
  · rfl

/-! ## Writing -/

theorem mem_write {m : Memory} {a : Nat} {b : Byte} {c : Host.Cell} (h : c ∈ m.write a b) : c = (a, b) ∨ c ∈ m := by
  induction m with
  | nil => exact mem_cons h
  | cons d m ih =>
    simp only [Memory.write] at h
    split at h
    · exact mem_cons h
    · split at h
      · exact (mem_cons h).imp_right (List.mem_cons_of_mem _)
      · rcases List.mem_cons.mp h with rfl | h
        · exact .inr (by simp)
        · exact (ih h).imp_right (List.mem_cons_of_mem _)

theorem write_wf {m : Memory} (hm : m.wf) (a : Nat) (b : Byte) : (m.write a b).wf := by
  induction m with
  | nil => exact cons_wf ⟨by simp, by simp⟩ (by simp)
  | cons d m ih =>
    obtain ⟨hd, hp⟩ := List.pairwise_cons.mp hm.1
    have hmt : Memory.wf m := ⟨hp, fun c hc => hm.2 c (by simp [hc])⟩
    simp only [Memory.write]
    split
    · rename_i hlt
      refine cons_wf hm fun c hc => ?_
      rcases List.mem_cons.mp hc with rfl | hc
      · exact hlt
      · exact hlt.trans (hd c hc)
    · split
      · rename_i he
        exact cons_wf hmt fun c hc => he ▸ hd c hc
      · have hw := ih hmt
        refine ⟨List.pairwise_cons.mpr ⟨fun c hc => ?_, hw.1⟩, fun c hc => ?_⟩
        · rcases mem_write hc with rfl | hc
          · show d.1 < a
            omega
          · exact hd c hc
        · rcases List.mem_cons.mp hc with rfl | hc
          · exact hm.2 _ (by simp)
          · exact hw.2 c hc

theorem byte_write {m : Memory} (hm : m.wf) (a : Nat) (b : Byte) (x : Nat) :
    (m.write a b).byte x = if x = a then b else m.byte x := by
  induction m with
  | nil => exact byte_cons (by simp) x
  | cons d m ih =>
    obtain ⟨hd, hp⟩ := List.pairwise_cons.mp hm.1
    have hmt : Memory.wf m := ⟨hp, fun c hc => hm.2 c (by simp [hc])⟩
    simp only [Memory.write]
    split
    · rename_i hlt
      refine byte_cons (fun c hc => ?_) x
      rcases List.mem_cons.mp hc with rfl | hc
      · exact hlt
      · exact hlt.trans (hd c hc)
    · split
      · rename_i he
        rw [byte_cons (fun c hc => he ▸ hd c hc)]
        simp only [Memory.byte, ← he]
        split <;> rfl
      · simp only [Memory.byte, ih hmt]
        by_cases hx : x = d.1 <;> by_cases hy : x = a <;> simp_all

/-! ## Loading -/

theorem mem_ofBytes {bs : List Byte} {a : Nat} {c : Host.Cell} (h : c ∈ Memory.ofBytes a bs) :
    a ≤ c.1 ∧ c.1 < a + bs.length := by
  induction bs generalizing a with
  | nil => simp [Memory.ofBytes] at h
  | cons b bs ih =>
    rcases mem_cons h with rfl | h
    · simp
    · have := ih h
      simp only [List.length_cons]
      omega

theorem ofBytes_wf (a : Nat) (bs : List Byte) : (Memory.ofBytes a bs).wf := by
  induction bs generalizing a with
  | nil => exact ⟨by simp [Memory.ofBytes], by simp [Memory.ofBytes]⟩
  | cons b bs ih => exact cons_wf (ih _) fun c hc => (mem_ofBytes hc).1

/-- A loaded buffer is written in its one canonical form. -/
theorem hostLoad_progWf (bs : List Byte) (s : State) : (hostLoad bs s).progWf :=
  ⟨ofBytes_wf 0 bs, fun c hc => by have := (mem_ofBytes hc).2; rwa [Nat.zero_add] at this⟩

theorem reset_progWf : State.reset.progWf := by decide

/-- Placing a fetch word keeps the canonical form. -/
theorem withFetchWord_progWf {s : State} (hs : s.progWf) (nbits w : Nat) : (s.withFetchWord nbits w).progWf := by
  have key : ((s.prog.write s.ip (BitVec.ofNat 8 (w % 2 ^ nbits))).write (s.ip + 1)
      (BitVec.ofNat 8 (w % 2 ^ nbits / 256))).wf ∧
      ∀ c ∈ (s.prog.write s.ip (BitVec.ofNat 8 (w % 2 ^ nbits))).write (s.ip + 1)
        (BitVec.ofNat 8 (w % 2 ^ nbits / 256)), c.1 < max s.progLen (s.ip + 2) := by
    refine ⟨write_wf (write_wf hs.1 _ _) _ _, fun c hc => ?_⟩
    rcases mem_write hc with rfl | hc
    · exact lt_max_of_lt_right (by simp)
    · rcases mem_write hc with rfl | hc
      · exact lt_max_of_lt_right (by simp)
      · exact lt_max_of_lt_left (hs.2 c hc)
  unfold State.withFetchWord
  split <;> exact key

end Sys2Proof.Machine
end

