-- ==== Sys2Proof/Laws/State.lean ====
section
/-! SUPPORT. What each update of the state does to each field, true by unfolding, so that no proof unfolds an update. -/

namespace Sys2Proof.Machine

theorem top_def (s : State) : s.top = s.stk.length := rfl

/-! ## takeFault -/

@[simp] theorem takeFault_run (r : Raised) (s : State) : (takeFault r s).run = .halted := rfl
@[simp] theorem takeFault_cause (r : Raised) (s : State) : (takeFault r s).cause = r.cause := rfl
@[simp] theorem takeFault_ip (r : Raised) (s : State) : (takeFault r s).ip = s.ip := rfl
@[simp] theorem takeFault_stk (r : Raised) (s : State) : (takeFault r s).stk = s.stk := rfl
@[simp] theorem takeFault_out (r : Raised) (s : State) : (takeFault r s).out = s.out := rfl
@[simp] theorem takeFault_prog (r : Raised) (s : State) : (takeFault r s).prog = s.prog := rfl
@[simp] theorem takeFault_progLen (r : Raised) (s : State) : (takeFault r s).progLen = s.progLen := rfl
@[simp] theorem takeFault_capacity (r : Raised) (s : State) : (takeFault r s).capacity = s.capacity := rfl
@[simp] theorem takeFault_top (r : Raised) (s : State) : (takeFault r s).top = s.top := rfl

/-! ## advance -/

@[simp] theorem advance_run (n : Nat) (s : State) : (advance n s).run = s.run := rfl
@[simp] theorem advance_cause (n : Nat) (s : State) : (advance n s).cause = s.cause := rfl
@[simp] theorem advance_ip (n : Nat) (s : State) : (advance n s).ip = s.ip + n := rfl
@[simp] theorem advance_stk (n : Nat) (s : State) : (advance n s).stk = s.stk := rfl
@[simp] theorem advance_out (n : Nat) (s : State) : (advance n s).out = s.out := rfl
@[simp] theorem advance_prog (n : Nat) (s : State) : (advance n s).prog = s.prog := rfl
@[simp] theorem advance_progLen (n : Nat) (s : State) : (advance n s).progLen = s.progLen := rfl
@[simp] theorem advance_capacity (n : Nat) (s : State) : (advance n s).capacity = s.capacity := rfl
@[simp] theorem advance_top (n : Nat) (s : State) : (advance n s).top = s.top := rfl

/-! ## outWrite -/

@[simp] theorem outWrite_run (b : Byte) (s : State) : (outWrite b s).run = s.run := rfl
@[simp] theorem outWrite_cause (b : Byte) (s : State) : (outWrite b s).cause = s.cause := rfl
@[simp] theorem outWrite_ip (b : Byte) (s : State) : (outWrite b s).ip = s.ip := rfl
@[simp] theorem outWrite_stk (b : Byte) (s : State) : (outWrite b s).stk = s.stk := rfl
@[simp] theorem outWrite_out (b : Byte) (s : State) : (outWrite b s).out = s.out ++ [b] := rfl
@[simp] theorem outWrite_prog (b : Byte) (s : State) : (outWrite b s).prog = s.prog := rfl
@[simp] theorem outWrite_progLen (b : Byte) (s : State) : (outWrite b s).progLen = s.progLen := rfl
@[simp] theorem outWrite_capacity (b : Byte) (s : State) : (outWrite b s).capacity = s.capacity := rfl
@[simp] theorem outWrite_top (b : Byte) (s : State) : (outWrite b s).top = s.top := rfl

/-! ## haltRun -/

@[simp] theorem haltRun_run (s : State) : (haltRun s).run = .halted := rfl
@[simp] theorem haltRun_cause (s : State) : (haltRun s).cause = .halt := rfl
@[simp] theorem haltRun_ip (s : State) : (haltRun s).ip = s.ip := rfl
@[simp] theorem haltRun_stk (s : State) : (haltRun s).stk = s.stk := rfl
@[simp] theorem haltRun_out (s : State) : (haltRun s).out = s.out := rfl
@[simp] theorem haltRun_prog (s : State) : (haltRun s).prog = s.prog := rfl
@[simp] theorem haltRun_progLen (s : State) : (haltRun s).progLen = s.progLen := rfl
@[simp] theorem haltRun_capacity (s : State) : (haltRun s).capacity = s.capacity := rfl
@[simp] theorem haltRun_top (s : State) : (haltRun s).top = s.top := rfl

/-! ## newStack -/

@[simp] theorem newStack_run (s : State) : (newStack s).run = s.run := rfl
@[simp] theorem newStack_cause (s : State) : (newStack s).cause = s.cause := rfl
@[simp] theorem newStack_ip (s : State) : (newStack s).ip = s.ip := rfl
@[simp] theorem newStack_stk (s : State) : (newStack s).stk = [] := rfl
@[simp] theorem newStack_out (s : State) : (newStack s).out = s.out := rfl
@[simp] theorem newStack_prog (s : State) : (newStack s).prog = s.prog := rfl
@[simp] theorem newStack_progLen (s : State) : (newStack s).progLen = s.progLen := rfl
@[simp] theorem newStack_capacity (s : State) : (newStack s).capacity = s.capacity := rfl
@[simp] theorem newStack_top (s : State) : (newStack s).top = 0 := rfl

/-! ## assertReset -/

@[simp] theorem assertReset_run (s : State) : (assertReset s).run = .running := rfl
@[simp] theorem assertReset_cause (s : State) : (assertReset s).cause = .none := rfl
@[simp] theorem assertReset_ip (s : State) : (assertReset s).ip = 0 := rfl
@[simp] theorem assertReset_stk (s : State) : (assertReset s).stk = [] := rfl
@[simp] theorem assertReset_out (s : State) : (assertReset s).out = [] := rfl
@[simp] theorem assertReset_prog (s : State) : (assertReset s).prog = s.prog := rfl
@[simp] theorem assertReset_progLen (s : State) : (assertReset s).progLen = s.progLen := rfl
@[simp] theorem assertReset_capacity (s : State) : (assertReset s).capacity = s.capacity := rfl
@[simp] theorem assertReset_top (s : State) : (assertReset s).top = 0 := rfl

/-! ## Reset -/

theorem reset_fixed_by_assertReset : assertReset State.reset = State.reset := rfl

@[simp] theorem boot_run (n : Nat) (bs : List Byte) : (boot n bs).run = .running := rfl
@[simp] theorem boot_cause (n : Nat) (bs : List Byte) : (boot n bs).cause = .none := rfl
@[simp] theorem boot_ip (n : Nat) (bs : List Byte) : (boot n bs).ip = 0 := rfl
@[simp] theorem boot_stk (n : Nat) (bs : List Byte) : (boot n bs).stk = [] := rfl
@[simp] theorem boot_out (n : Nat) (bs : List Byte) : (boot n bs).out = [] := rfl
@[simp] theorem boot_prog (n : Nat) (bs : List Byte) : (boot n bs).prog = Memory.ofBytes 0 bs := rfl
@[simp] theorem boot_progLen (n : Nat) (bs : List Byte) : (boot n bs).progLen = bs.length := rfl
@[simp] theorem boot_capacity (n : Nat) (bs : List Byte) : (boot n bs).capacity = n := rfl

end Sys2Proof.Machine
end

