-- ==== Sys2Proof/Laws/Ops.lean ====
section
/-! SUPPORT. What each shared operation can do, said once: the bounds-checked read, the stack primitives, the low eight
bits, and the end of a step. -/

namespace Sys2Proof.Machine

/-! ## The bounds-checked read -/

theorem memRead_inside {s : State} {a : Nat} (h : a < s.progLen) : memRead s a = .ok (s.prog.byte a) := by
  simp [memRead, Nat.not_le.mpr h]

theorem memRead_outside {s : State} {a : Nat} (h : s.progLen ≤ a) :
    memRead s a = .error (.raised (.programBounds a)) := by
  simp [memRead, h]

theorem memRead_ok_iff {s : State} {a : Nat} {b : Byte} :
    memRead s a = .ok b ↔ a < s.progLen ∧ s.prog.byte a = b := by
  rcases Nat.lt_or_ge a s.progLen with h | h
  · simp [memRead_inside h, h]
  · simp [memRead_outside h, Nat.not_lt.mpr h]

/-- The read depends on the configuration alone. -/
theorem memRead_congr {s t : State} (hp : t.prog = s.prog) (hl : t.progLen = s.progLen) (a : Nat) :
    memRead t a = memRead s a := by
  simp [memRead, hp, hl]

/-! ## The stack primitives -/

theorem push_full {v : Value} {s : State} (h : s.top = s.capacity) :
    push v s = .error (.raised (.stackOverflow s.top)) := by
  simp [push, h]

theorem push_room {v : Value} {s : State} (h : s.top ≠ s.capacity) :
    push v s = .ok { s with stk := s.stk ++ [v] } := by
  simp [push, h]

/-- A push that succeeds found room and appended its value. -/
theorem push_ok {v : Value} {s t : State} (h : push v s = .ok t) :
    s.top ≠ s.capacity ∧ t = { s with stk := s.stk ++ [v] } := by
  by_cases hc : s.top = s.capacity
  · simp [push_full hc] at h
  · rw [push_room hc] at h
    exact ⟨hc, (Except.ok.inj h).symm⟩

theorem pop_empty {s : State} (h : s.stk = []) : pop s = .error (.raised (.stackUnderflow 0)) := by
  simp [pop, h]

theorem pop_concat {s : State} {l : List Value} {v : Value} (h : s.stk = l ++ [v]) :
    pop s = .ok (v, { s with stk := l }) := by
  simp [pop, h]

/-- A pop that succeeds took the last value off. -/
theorem pop_ok {s t : State} {v : Value} (h : pop s = .ok (v, t)) :
    s.stk = t.stk ++ [v] ∧ t = { s with stk := t.stk } := by
  rcases List.eq_nil_or_concat s.stk with hn | ⟨l, w, hl⟩
  · simp [pop_empty hn] at h
  · rw [pop_concat (by simpa using hl)] at h
    obtain ⟨rfl, rfl⟩ := Prod.mk.inj (Except.ok.inj h)
    exact ⟨by simpa using hl, rfl⟩

theorem peek_empty {s : State} (h : s.stk = []) : peek s = .error (.raised (.stackUnderflow 0)) := by
  simp [peek, h]

theorem peek_concat {s : State} {l : List Value} {v : Value} (h : s.stk = l ++ [v]) : peek s = .ok v := by
  simp [peek, h]

/-! ## Operands -/

@[simp] theorem low8_charValue (b : Byte) : low8 (charValue b) = .ok b := rfl

/-- The only way `low8` fails is the refusal of a pointer. -/
theorem low8_error {v : Value} {e : Stop} (h : low8 v = .error e) : e = .refused .pointerPayload := by
  unfold low8 at h
  split at h <;> cases h
  rfl

/-! ## The end of a step -/

@[simp] theorem finish_ok (s t : State) : finish s (.ok t) = .next t := rfl
@[simp] theorem finish_raised (s : State) (r : Raised) : finish s (.error (.raised r)) = .next (takeFault r s) := rfl
@[simp] theorem finish_refused (s : State) (q : Refusal) : finish s (.error (.refused q)) = .refused q := rfl

/-- A step that ends in a next state committed the handler's state or took a fault. -/
theorem finish_next {s t : State} {x : Except Stop State} (h : finish s x = .next t) :
    x = .ok t ∨ ∃ r, x = .error (.raised r) ∧ t = takeFault r s := by
  rcases x with (r | q) | u
  · exact .inr ⟨r, rfl, by simpa using h.symm⟩
  · simp at h
  · exact .inl (by simpa using h)

/-- A step never ends in the model's own fault once it is enabled. -/
theorem finish_ne_fault (s : State) (x : Except Stop State) (f : Fault) : finish s x ≠ .fault f := by
  rcases x with (r | q) | u <;> simp

@[simp] theorem raised_cause_ne_none (r : Raised) : r.cause ≠ .none := by cases r <;> simp [Raised.cause]
@[simp] theorem raised_cause_ne_halt (r : Raised) : r.cause ≠ .halt := by cases r <;> simp [Raised.cause]

end Sys2Proof.Machine
end

