-- ==== Sys2Proof/Laws/PerInstr.lean ====
section
/-! SUPPORT. The family of statements made instruction by instruction: the encoding of an instruction has the length
its opcode byte decides (30_encoding.md R58, R59). -/

namespace Sys2Proof.Laws

/-- A well-formed instruction's bytes begin with its opcode, and their number is what that opcode byte alone decides. -/
def EncodeLength.Statement (i : Instr) : Prop :=
  i.wf = true → (encode i).head? = some i.opcode ∧ (encode i).length = opLength i.opcode

theorem EncodeLength.halt : EncodeLength.Statement .halt := fun _ => by decide

theorem EncodeLength.pushc (imm8 : Byte) : EncodeLength.Statement (.pushc imm8) := fun _ => ⟨rfl, rfl⟩

theorem EncodeLength.emit : EncodeLength.Statement .emit := fun _ => by decide

theorem EncodeLength.nop (op : Byte) : EncodeLength.Statement (.nop op) := fun h => by
  have hp : op ≠ Config.pushcOpcode := by
    rintro rfl
    exact absurd h (by decide)
  simp [encode, Instr.opcode, opLength, hp]

end Sys2Proof.Laws
end

