-- ==== Sys2Proof/Laws/Step.lean ====
section
/-! SUPPORT. What each instruction and a step can do, said once (inversion lemmas), for the provers to cite. -/

namespace Sys2Proof.Machine

/-! ## The instructions -/

/-- Everything PUSHC can answer (41_dispatch.md R91, R92). -/
theorem execPushc_next {b : Byte} {s t : State} (h : execPushc b s = .next t) :
    (s.ip + 1 < s.progLen ∧ s.top ≠ s.capacity ∧ t = { s with stk := s.stk ++ [charValue b], ip := s.ip + 2 }) ∨
    (s.ip + 1 < s.progLen ∧ s.top = s.capacity ∧ t = takeFault (.stackOverflow s.top) s) ∨
    (s.progLen ≤ s.ip + 1 ∧ t = takeFault (.programBounds (s.ip + 1)) s) := by
  unfold execPushc fetchImm8 at h
  rcases Nat.lt_or_ge (s.ip + 1) s.progLen with hl | hl
  · rw [memRead_inside hl] at h
    by_cases hc : s.top = s.capacity
    · rw [push_full hc] at h
      exact .inr (.inl ⟨hl, hc, (Host.Outcome.next.inj h).symm⟩)
    · rw [push_room hc] at h
      exact .inl ⟨hl, hc, (Host.Outcome.next.inj h).symm⟩
  · rw [memRead_outside hl] at h
    exact .inr (.inr ⟨hl, (Host.Outcome.next.inj h).symm⟩)

/-- Everything EMIT can answer with a next state (41_dispatch.md R93). -/
theorem execEmit_next {s t : State} (h : execEmit s = .next t) :
    (∃ l v b, s.stk = l ++ [v] ∧ low8 v = .ok b ∧ t = { s with stk := l, out := s.out ++ [b], ip := s.ip + 1 }) ∨
    (s.stk = [] ∧ t = takeFault (.stackUnderflow 0) s) := by
  unfold execEmit at h
  rcases List.eq_nil_or_concat s.stk with hn | ⟨l, v, hl⟩
  · rw [pop_empty hn] at h
    exact .inr ⟨hn, (Host.Outcome.next.inj h).symm⟩
  · rw [List.concat_eq_append] at hl
    rw [pop_concat hl] at h
    rcases hb : low8 v with e | b
    · rw [low8_error hb] at hb
      simp [hb, bind, Except.bind] at h
    · simp only [hb, bind, Except.bind] at h
      exact .inl ⟨l, v, b, hl, hb, (Host.Outcome.next.inj h).symm⟩

/-- No instruction ends in the model's own fault. -/
theorem exec_ne_fault (i : Instr) (s : State) (f : Fault) : exec i s ≠ .fault f := by
  cases i <;> simp only [exec, execHalt, execPushc, execEmit, execNop, ne_eq] <;> exact finish_ne_fault s _ f

/-! ## The fetch -/

theorem fetchWindow_two {s : State} (h : s.ip + 1 < s.progLen) :
    fetchWindow s = [s.prog.byte s.ip, s.prog.byte (s.ip + 1)] := by
  have h0 : s.ip < s.progLen := by omega
  simp [fetchWindow, progByte?, h, h0]

theorem fetchWindow_one {s : State} (h : s.ip + 1 = s.progLen) : fetchWindow s = [s.prog.byte s.ip] := by
  have h0 : s.ip < s.progLen := by omega
  have h1 : ¬s.ip + 1 < s.progLen := by omega
  simp [fetchWindow, progByte?, h0, h1]

theorem fetchWindow_none {s : State} (h : s.progLen ≤ s.ip) : fetchWindow s = [] := by
  have h0 : ¬s.ip < s.progLen := by omega
  have h1 : ¬s.ip + 1 < s.progLen := by omega
  simp [fetchWindow, progByte?, h0, h1]

/-- The fetch finds nothing at or past the end. -/
theorem fetchInstr_past {s : State} (h : s.progLen ≤ s.ip) :
    fetchInstr s = .error (.raised (.programBounds s.ip)) := by
  unfold fetchInstr
  rw [fetchWindow_none h]
  rfl

/-- The bytes at `ip`, whatever stands after the opcode. -/
theorem fetchWindow_opcode {s : State} (h : s.ip < s.progLen) :
    ∃ rest, fetchWindow s = s.prog.byte s.ip :: rest ∧
      rest = if s.ip + 1 < s.progLen then [s.prog.byte (s.ip + 1)] else [] := by
  by_cases h' : s.ip + 1 < s.progLen
  · exact ⟨_, fetchWindow_two h', by rw [if_pos h']⟩
  · exact ⟨_, fetchWindow_one (by omega), by rw [if_neg h']⟩

theorem fetchInstr_halt {s : State} (h : s.ip < s.progLen) (ho : s.prog.byte s.ip = 0x68#8) :
    fetchInstr s = .ok .halt := by
  obtain ⟨rest, hw, -⟩ := fetchWindow_opcode h
  unfold fetchInstr
  rw [hw, ho]
  rfl

theorem fetchInstr_pushc {s : State} (h : s.ip + 1 < s.progLen) (ho : s.prog.byte s.ip = 0x63#8) :
    fetchInstr s = .ok (.pushc (s.prog.byte (s.ip + 1))) := by
  unfold fetchInstr
  rw [fetchWindow_two h, ho]
  rfl

theorem fetchInstr_noImmediate {s : State} (h : s.ip + 1 = s.progLen) (ho : s.prog.byte s.ip = 0x63#8) :
    fetchInstr s = .error (.raised (.programBounds (s.ip + 1))) := by
  unfold fetchInstr
  rw [fetchWindow_one h, ho]
  rfl

theorem fetchInstr_emit {s : State} (h : s.ip < s.progLen) (ho : s.prog.byte s.ip = 0x65#8) :
    fetchInstr s = .ok .emit := by
  obtain ⟨rest, hw, -⟩ := fetchWindow_opcode h
  unfold fetchInstr
  rw [hw, ho]
  rfl

theorem fetchInstr_nop {s : State} (h : s.ip < s.progLen) (hp : s.prog.byte s.ip ≠ 0x63#8)
    (he : s.prog.byte s.ip ≠ 0x65#8) (hh : s.prog.byte s.ip ≠ 0x68#8) :
    fetchInstr s = .ok (.nop (s.prog.byte s.ip)) := by
  obtain ⟨rest, hw, -⟩ := fetchWindow_opcode h
  unfold fetchInstr
  rw [hw]
  simp [decode, dispatch, hp, he, hh]

/-! ## The step -/

theorem step_halted {s : State} (h : s.run = .halted) : step s = .fault .halted := by
  simp [step, enabled, h]

theorem step_running {s : State} (h : s.run = .running) :
    step s = match fetchInstr s with
      | .ok i => exec i s
      | .error e => finish s (.error e) := by
  unfold step enabled
  rw [h]
  rfl

/-- Everything a step can do, by the byte at `ip` (42_execution_loop.md R98, 60_exceptions.md R119). -/
inductive StepCase (s : State) : State → Prop
  | pastEnd (h : s.progLen ≤ s.ip) : StepCase s (takeFault (.programBounds s.ip) s)
  | halt (h : s.ip < s.progLen) (ho : s.prog.byte s.ip = 0x68#8) : StepCase s (haltRun s)
  | noImmediate (h : s.ip + 1 = s.progLen) (ho : s.prog.byte s.ip = 0x63#8) :
      StepCase s (takeFault (.programBounds (s.ip + 1)) s)
  | overflow (h : s.ip + 1 < s.progLen) (ho : s.prog.byte s.ip = 0x63#8) (hc : s.top = s.capacity) :
      StepCase s (takeFault (.stackOverflow s.top) s)
  | pushc (h : s.ip + 1 < s.progLen) (ho : s.prog.byte s.ip = 0x63#8) (hc : s.top ≠ s.capacity) :
      StepCase s { s with stk := s.stk ++ [charValue (s.prog.byte (s.ip + 1))], ip := s.ip + 2 }
  | underflow (h : s.ip < s.progLen) (ho : s.prog.byte s.ip = 0x65#8) (hs : s.stk = []) :
      StepCase s (takeFault (.stackUnderflow 0) s)
  | emit (h : s.ip < s.progLen) (ho : s.prog.byte s.ip = 0x65#8) (l : List Value) (v : Value) (b : Byte)
      (hs : s.stk = l ++ [v]) (hb : low8 v = .ok b) :
      StepCase s { s with stk := l, out := s.out ++ [b], ip := s.ip + 1 }
  | nop (h : s.ip < s.progLen) (hp : s.prog.byte s.ip ≠ 0x63#8) (he : s.prog.byte s.ip ≠ 0x65#8)
      (hh : s.prog.byte s.ip ≠ 0x68#8) : StepCase s (advance 1 s)

/-- A step that answers a next state began in `RUNNING` and did one of these. -/
theorem step_next {s t : State} (h : step s = .next t) : s.run = .running ∧ StepCase s t := by
  cases hr : s.run with
  | halted => rw [step_halted hr] at h; cases h
  | running =>
    refine ⟨rfl, ?_⟩
    rw [step_running hr] at h
    rcases Nat.lt_or_ge s.ip s.progLen with hi | hi
    · by_cases hh : s.prog.byte s.ip = 0x68#8
      · rw [fetchInstr_halt hi hh] at h
        cases h
        exact .halt hi hh
      by_cases hp : s.prog.byte s.ip = 0x63#8
      · by_cases hi' : s.ip + 1 < s.progLen
        · rw [fetchInstr_pushc hi' hp] at h
          rcases execPushc_next h with ⟨_, hc, rfl⟩ | ⟨_, hc, rfl⟩ | ⟨hl, _⟩
          · exact .pushc hi' hp hc
          · exact .overflow hi' hp hc
          · omega
        · rw [fetchInstr_noImmediate (by omega) hp] at h
          cases h
          exact .noImmediate (by omega) hp
      by_cases he : s.prog.byte s.ip = 0x65#8
      · rw [fetchInstr_emit hi he] at h
        rcases execEmit_next h with ⟨l, v, b, hs, hb, rfl⟩ | ⟨hs, rfl⟩
        · exact .emit hi he l v b hs hb
        · exact .underflow hi he hs
      · rw [fetchInstr_nop hi hp he hh] at h
        cases h
        exact .nop hi hp he hh
    · rw [fetchInstr_past hi] at h
      cases h
      exact .pastEnd hi

end Sys2Proof.Machine
end

