-- ==== Sys2Proof/Tests/Slice0.lean ====
section
/-! SUPPORT. Small tests, their expected results taken from the worked vectors of spec/95_test_vectors.md and the rules
they cite, and for every statement with hypotheses a named witness that meets them (`witness_<statement>`). -/

open Sys2Proof Sys2Proof.Machine

namespace Sys2Proof.Tests

/-- A running state: a capacity, a program, `ip`, the payload bytes on the stack bottom first, the output so far
(the notation of 95_test_vectors.md). -/
def st (cap : Nat) (prog : List Byte) (ip : Nat) (stk out : List Byte) : State :=
  { boot cap prog with ip := ip, stk := stk.map charValue, out := out }

/-- The same stopped with a cause. -/
def stopped (c : Cause) (s : State) : State := { s with run := .halted, cause := c }

/-- The next state of an outcome. -/
def after : Host.Outcome State Fault Refusal → Option State
  | .next s => some s
  | .fault _ => none
  | .refused _ => none

/-! ## Decoding (95_test_vectors.md L2.1; words by the patterns of 30_encoding.md R58, R62) -/

theorem test_decode_pushc : decode [0b01100011#8, 0b01101000#8, 0xAA#8] = .ok (.pushc 0x68#8, [0xAA#8]) := by decide
theorem test_decode_emit : decode [0b01100101#8, 0xAA#8] = .ok (.emit, [0xAA#8]) := by decide
theorem test_decode_halt : decode [0b01101000#8, 0xAA#8] = .ok (.halt, [0xAA#8]) := by decide
theorem test_decode_nop : decode [0b01100100#8, 0xAA#8] = .ok (.nop 0x64#8, [0xAA#8]) := by decide
theorem test_decode_compares_all_bits :
    decode [0x43#8] = .ok (.nop 0x43#8, []) ∧ decode [0xE3#8] = .ok (.nop 0xE3#8, []) := by decide
theorem test_decode_missing : decode [] = .error .noOpcode ∧ decode [0x63#8] = .error .noImmediate := by decide
theorem test_encode_words :
    encode (.pushc 0xFF#8) = [0b01100011#8, 0xFF#8] ∧ encode .emit = [0b01100101#8] ∧
    encode .halt = [0b01101000#8] ∧ encode (.nop 0x00#8) = [0x00#8] := by decide
theorem test_table_words :
    decodeTableWord 16 0xAB63 = some (.pushc 0xAB#8) ∧ decodeTableWord 8 0xAB63 = some (.pushc 0x00#8) ∧
    decodeTableWord 8 0x65 = some .emit ∧ decodeTableWord 8 0x68 = some .halt ∧
    decodeTableWord 8 0x00 = some (.nop 0x00#8) := by decide
/-- 95_test_vectors.md L1.10. -/
theorem test_dispatch_table :
    dispatchTable[0x63] = .pushc ∧ dispatchTable[0x65] = .emit ∧ dispatchTable[0x68] = .nop ∧
    dispatchTable[0] = .nop := by decide

/-! ## Ill-formed terms -/

theorem test_wf_refuses_named_opcodes :
    (Instr.nop 0x63#8).wf = false ∧ (Instr.nop 0x65#8).wf = false ∧ (Instr.nop 0x68#8).wf = false := by decide
theorem test_wf_accepts_neighbours :
    (Instr.nop 0x62#8).wf = true ∧ (Instr.nop 0x64#8).wf = true ∧ (Instr.nop 0x69#8).wf = true := by decide

/-! ## One step of each instruction (95_test_vectors.md L2.3 to L2.6) -/

/-- P8: bounds is reported before overflow. -/
theorem test_pushc_bounds_first :
    after (step (st 1 [0x00#8, 0x63#8] 1 [9#8] [])) =
      some (stopped .programBounds (st 1 [0x00#8, 0x63#8] 1 [9#8] [])) := by decide
/-- P9 with the immediate 0x68 of P4: the last free slot is written, an immediate does not halt. -/
theorem test_pushc_fills_stack :
    after (step (st 2 [0x63#8, 0x68#8, 0x68#8] 0 [1#8] [])) =
      some (st 2 [0x63#8, 0x68#8, 0x68#8] 2 [1#8, 0x68#8] []) := by decide
/-- E2. -/
theorem test_emit_takes_the_top :
    after (step (st 1024 [0x65#8, 0x68#8] 0 [0x41#8, 0x42#8] [0x7A#8])) =
      some (st 1024 [0x65#8, 0x68#8] 1 [0x41#8] [0x7A#8, 0x42#8]) := by decide
/-- E3: no byte is written on underflow. -/
theorem test_emit_underflow :
    after (step (st 1024 [0x65#8, 0x68#8] 0 [] [])) =
      some (stopped .stackUnderflow (st 1024 [0x65#8, 0x68#8] 0 [] [])) := by decide
/-- N5: a full stack does not matter. -/
theorem test_nop_on_full_stack :
    after (step (st 1 [0x00#8, 0x68#8] 0 [5#8] [])) = some (st 1 [0x00#8, 0x68#8] 1 [5#8] []) := by decide
/-- N6: a NOP in the last byte. -/
theorem test_nop_at_the_end : after (step (st 1 [0xFF#8] 0 [] [])) = some (st 1 [0xFF#8] 1 [] []) := by decide
/-- H2: values stay on the stack. -/
theorem test_halt_keeps_stack :
    after (step (st 1024 [0x68#8, 0x65#8] 0 [0x41#8] [])) =
      some (stopped .halt (st 1024 [0x68#8, 0x65#8] 0 [0x41#8] [])) := by decide
/-- F1: the empty program. -/
theorem test_empty_program : after (step State.reset) = some (stopped .programBounds State.reset) := by decide
/-- F2. -/
theorem test_fetch_past_the_end :
    after (step (st 4 [0x00#8, 0x00#8] 2 [] [])) = some (stopped .programBounds (st 4 [0x00#8, 0x00#8] 2 [] [])) := by
  decide
/-- A PUSHC word placed at reset runs as the first instruction. -/
theorem test_first_instruction_after_reset :
    (after (step (State.reset.withFetchWord 16 0x4163))).map (fun s => (s.stk, s.ip)) =
      some ([charValue 0x41#8], 2) := by decide

/-! ## Primitives, status word, host interface, program image -/

/-- L2.2 S3 and S5 to S7. -/
theorem test_stack_primitives :
    push (charValue 4#8) (st 4 [] 0 [1#8, 2#8, 3#8, 4#8] []) = .error (.raised (.stackOverflow 4)) ∧
    pop (st 4 [] 0 [] []) = .error (.raised (.stackUnderflow 0)) ∧
    peek (st 4 [] 0 [0x10#8, 0x20#8] []) = .ok (charValue 0x20#8) ∧
    peek (st 4 [] 0 [] []) = .error (.raised (.stackUnderflow 0)) := by decide
/-- L2.7. -/
theorem test_status_word :
    statusWord State.reset = 0x00#8 ∧ statusWord (stopped .halt State.reset) = 0x03#8 ∧
    statusWord (stopped .stackUnderflow State.reset) = 0x05#8 ∧
    statusWord (stopped .stackOverflow State.reset) = 0x07#8 ∧
    statusWord (stopped .programBounds State.reset) = 0x09#8 := by decide
/-- L3.6: the missing immediate was read at offset 2. -/
theorem test_fault_info :
    faultInfo (stopped .programBounds (st 8 [0x00#8, 0x63#8] 1 [] [])) = some 2 ∧
    faultInfo (stopped .programBounds (st 8 [0x00#8] 1 [] [])) = some 1 := by decide
/-- 41_dispatch.md R94: 0x12345678 gives its bits 7:0. -/
theorem test_low8 :
    low8 ⟨0#8, .s8 0xFE#8⟩ = .ok 0xFE#8 ∧ low8 ⟨0#8, .u32 0x12345678#32⟩ = .ok 0x78#8 ∧
    low8 ⟨0#8, .s32 0xFFFFFF85#32⟩ = .ok 0x85#8 ∧
    low8 ⟨0#8, .ptr 7⟩ = .error (.refused .pointerPayload) := by decide
/-- The sweep and the assembler on L3.1. -/
theorem test_sweep :
    sweep [0x00#8, 0x63#8, 0x68#8, 0x63#8, 0x63#8, 0x65#8, 0x65#8, 0xFF#8, 0x68#8] =
      [.instr (.nop 0x00#8), .instr (.pushc 0x68#8), .instr (.pushc 0x63#8), .instr .emit, .instr .emit,
        .instr (.nop 0xFF#8), .instr .halt] ∧
    sweepOffsets 0 [0x00#8, 0x63#8, 0x68#8, 0x63#8] = [0, 1, 3] := by decide
theorem test_assemble :
    assemble [.nop, .pushc (.chr 'h'), .putc (.num 0x41), .nopByte 0xFF, .halt] =
      some [0x00#8, 0x63#8, 0x68#8, 0x63#8, 0x41#8, 0x65#8, 0xFF#8, 0x68#8] ∧
    assemble [.nopByte 0x63] = none ∧ assemble [.byte 0x63] = some [0x63#8] ∧
    assemble [.pushc (.num 256)] = none := by decide
/-- Two lines in the form of L3.1: a quoted character with a comment, and a hexadecimal number. -/
theorem test_assembler_text :
    assembleText ['P', 'U', 'S', 'H', 'C', ' ', quoteMark, ';', quoteMark, ' ', ';', '6', Char.ofNat 10,
      ' ', 'N', 'O', 'P', ' ', '0', 'x', 'F', 'F', Char.ofNat 10] = some [0x63#8, 0x3B#8, 0xFF#8] := by decide
/-- Log 20: a quoted character needs no blank before it (`PUSHC'x';`). -/
theorem test_assembler_text_needs_no_blank :
    assembleText ['P', 'U', 'S', 'H', 'C', quoteMark, 'x', quoteMark, ';'] = some [0x63#8, 0x78#8] := by decide
/-- Log 20: `NOP 'a'` is refused, and so is a line that ends in a carriage return. -/
theorem test_assembler_text_refuses :
    assembleText ['N', 'O', 'P', ' ', quoteMark, 'a', quoteMark] = none ∧
    assembleText ['E', 'M', 'I', 'T', Char.ofNat 13, Char.ofNat 10] = none := by decide
/-- L3.2 and L3.5, read off the sweep. -/
theorem test_sweepCause :
    sweepCause 2 0 (sweep [0x63#8, 1#8, 0x63#8, 2#8, 0x63#8, 3#8, 0x68#8]) = .stackOverflow ∧
    sweepCause 3 0 (sweep [0x63#8, 1#8, 0x63#8, 2#8, 0x63#8, 3#8, 0x68#8]) = .halt ∧
    sweepCause 2 0 (sweep [0x63#8, 0x41#8, 0x65#8]) = .programBounds := by decide

/-! ## Witnesses: states and operands that meet a statement's hypotheses, each clause at the edge of its range -/

/-- The small states above meet the invariant under these bounds. -/
theorem st_inv {cap ip : Nat} {prog stk out : List Byte} (hc : 1 ≤ cap) (hi : ip ≤ prog.length)
    (ht : stk.length ≤ cap) (hb : 2 * stk.length + 3 * out.length ≤ ip) : (st cap prog ip stk out).Inv where
  progWf := hostLoad_progWf prog { State.reset with capacity := cap }
  capacity_pos := hc
  ip_le := hi
  top_le := by simpa [State.top, st] using ht
  run_cause := by simp [st]
  chars := by
    intro v hv
    obtain ⟨b, _, rfl⟩ := List.mem_map.mp hv
    exact ⟨b, rfl⟩
  bytes_used := by simpa [State.top, st] using hb

/-- `63 01 63 02 65 68` after its first step, capacity 1: a full stack before a PUSHC. -/
def full : State := st 1 [0x63#8, 1#8, 0x63#8, 2#8, 0x65#8, 0x68#8] 2 [1#8] []

/-- The same program and `ip` with room for one more. -/
def room : State := st 2 [0x63#8, 1#8, 0x63#8, 2#8, 0x65#8, 0x68#8] 2 [1#8] []

/-- The same program at its EMIT, with one value. -/
def atEmit : State := st 2 [0x63#8, 1#8, 0x63#8, 2#8, 0x65#8, 0x68#8] 4 [2#8] []

/-- The same program at its last byte, HALT. -/
def atHalt : State := st 2 [0x63#8, 1#8, 0x63#8, 2#8, 0x65#8, 0x68#8] 5 [] [2#8]

theorem full_inv : full.Inv := st_inv (by decide) (by decide) (by decide) (by decide)
theorem room_inv : room.Inv := st_inv (by decide) (by decide) (by decide) (by decide)

theorem witness_DispatchTableIsDispatch : (0x68#8 : Byte) ≠ 0x63#8 ∧ (0x68#8 : Byte) ≠ 0x65#8 := by decide
theorem witness_DecodeIsTheOpcodeMap :
    (0x69#8 : Byte) ≠ 0x63#8 ∧ (0x69#8 : Byte) ≠ 0x65#8 ∧ (0x69#8 : Byte) ≠ 0x68#8 := by decide
theorem witness_SweepOfEncodedProgram_AssembleOfDisassembly :
    ∀ i ∈ [Instr.pushc 0x68#8, .nop 0x69#8, .emit, .halt], i.wf = true := by decide
theorem witness_StepRunsDecodedInstruction :
    room.run = .running ∧ decode (fetchWindow room) = .ok (.pushc 2#8, []) := by decide
theorem witness_StepRunsInstructionAtIp :
    atHalt.run = .running ∧ Instr.halt.wf = true ∧ atHalt.holdsAt atHalt.ip (encode .halt) := by
  unfold State.holdsAt
  decide
theorem witness_HaltedHasNoStep : (stopped .halt atHalt).run = .halted := by decide
theorem witness_TransitionsOutOfRunning :
    ((st 1 [0x00#8] 1 [] []).run = .running ∧ (st 1 [0x00#8] 1 [] []).progLen ≤ (st 1 [0x00#8] 1 [] []).ip) ∧
    (atHalt.run = .running ∧ atHalt.ip < atHalt.progLen ∧ atHalt.prog.byte atHalt.ip = 0x68#8) ∧
    (full.run = .running ∧ full.ip < full.progLen ∧ full.prog.byte full.ip ≠ 0x68#8 ∧
      after (step full) = some (stopped .stackOverflow full)) := by decide
theorem witness_ReadIsBoundsChecked : atHalt.progLen ≤ 6 ∧ 5 < atHalt.progLen := by decide
theorem witness_LoadedProgramReadsBack :
    memRead (boot 1 [7#8, 0#8]) 1 = .ok 0#8 ∧
    memRead (boot 1 [7#8, 0#8]) 2 = .error (.raised (.programBounds 2)) := by decide
theorem witness_PushWritesSlotTop : full.top = full.capacity ∧ room.top ≠ room.capacity := by decide
theorem witness_PopTakesTopSlot_PeekReadsTopSlot : atHalt.top = 0 ∧ atEmit.top ≠ 0 := by decide
theorem witness_PushesThenPopsAreLifo :
    room.top ≤ room.capacity ∧ room.top + [charValue 9#8].length ≤ room.capacity ∧
    room.capacity < room.top + [charValue 9#8, charValue 8#8].length := by decide
theorem witness_PushcCompletes : room.ip + 1 < room.progLen ∧ room.top ≠ room.capacity := by decide
theorem witness_PushcTraps :
    (st 1 [0x00#8, 0x63#8] 1 [9#8] []).progLen ≤ (st 1 [0x00#8, 0x63#8] 1 [9#8] []).ip + 1 ∧
    full.ip + 1 < full.progLen ∧ full.top = full.capacity := by decide
theorem witness_PushcStep : room.run = .running ∧ room.ip < room.progLen ∧ room.prog.byte room.ip = 0x63#8 := by decide
theorem witness_PushcFrame : (after (exec (.pushc 7#8) room)).isSome = true := by decide
theorem witness_EmitCompletes :
    (∃ l, { atEmit with stk := [⟨0x63#8, .u8 0xFF#8⟩] }.stk = l ++ [⟨0x63#8, .u8 0xFF#8⟩]) ∧
    (∃ l, { atEmit with stk := [⟨1#8, .s8 0xFF#8⟩] }.stk = l ++ [⟨1#8, .s8 0xFF#8⟩]) ∧
    (∃ l, { atEmit with stk := [⟨2#8, .u32 0x1FF#32⟩] }.stk = l ++ [⟨2#8, .u32 0x1FF#32⟩]) ∧
    (∃ l, { atEmit with stk := [⟨3#8, .s32 0x1FF#32⟩] }.stk = l ++ [⟨3#8, .s32 0x1FF#32⟩]) :=
  ⟨⟨[], rfl⟩, ⟨[], rfl⟩, ⟨[], rfl⟩, ⟨[], rfl⟩⟩
theorem witness_EmitStops :
    atHalt.top = 0 ∧ ∃ l, { atEmit with stk := [⟨4#8, .ptr 0⟩] }.stk = l ++ [⟨4#8, .ptr 0⟩] := ⟨rfl, [], rfl⟩
theorem witness_EmitStep :
    (atEmit.run = .running ∧ atEmit.ip < atEmit.progLen ∧ atEmit.prog.byte atEmit.ip = 0x65#8 ∧
      atEmit.stk = [] ++ [charValue 2#8] ∧ low8 (charValue 2#8) = .ok 2#8) ∧
    (newStack atEmit).run = .running ∧ (newStack atEmit).ip < (newStack atEmit).progLen ∧
      (newStack atEmit).prog.byte (newStack atEmit).ip = 0x65#8 ∧ (newStack atEmit).top = 0 := by decide
theorem witness_EmitFrame : (after (exec .emit atEmit)).isSome = true := by decide
theorem witness_NopStep :
    (st 1 [0x69#8] 0 [] []).run = .running ∧ (st 1 [0x69#8] 0 [] []).ip < (st 1 [0x69#8] 0 [] []).progLen ∧
    (st 1 [0x69#8] 0 [] []).prog.byte 0 ≠ 0x63#8 ∧ (st 1 [0x69#8] 0 [] []).prog.byte 0 ≠ 0x65#8 ∧
    (st 1 [0x69#8] 0 [] []).prog.byte 0 ≠ 0x68#8 := by decide
theorem witness_HaltStopsCleanly :
    atHalt.run = .running ∧ atHalt.ip < atHalt.progLen ∧ atHalt.prog.byte atHalt.ip = 0x68#8 := by decide
theorem witness_NopHaltFrame :
    (after (exec .halt atHalt)).isSome = true ∧ (after (exec (.nop 0x69#8) atHalt)).isSome = true := by decide
theorem witness_FaultsArePrecise :
    full.run = .running ∧ full.cause = .none ∧ loopBody full = .error (.raised (.stackOverflow 1)) ∧
    after (step full) = some (stopped .stackOverflow full) ∧ (stopped .stackOverflow full).cause.isFault = true := by
  decide
theorem witness_WhenEachFaultIsRecorded :
    (full.run = .running ∧ full.cause = .none ∧ after (step full) = some (stopped .stackOverflow full)) ∧
    ((newStack atEmit).run = .running ∧ (newStack atEmit).cause = .none ∧
      after (step (newStack atEmit)) = some (stopped .stackUnderflow (newStack atEmit))) ∧
    ((st 1 [0x63#8] 0 [] []).run = .running ∧ (st 1 [0x63#8] 0 [] []).cause = .none ∧
      after (step (st 1 [0x63#8] 0 [] [])) = some (stopped .programBounds (st 1 [0x63#8] 0 [] []))) := by decide
theorem witness_FaultInfoCanBeRebuilt :
    (full.ip ≤ full.progLen ∧ loopBody full = .error (.raised (.stackOverflow 1))) ∧
    ((newStack atEmit).ip ≤ (newStack atEmit).progLen ∧
      loopBody (newStack atEmit) = .error (.raised (.stackUnderflow 0))) ∧
    ((st 1 [0x63#8] 0 [] []).ip ≤ (st 1 [0x63#8] 0 [] []).progLen ∧
      loopBody (st 1 [0x63#8] 0 [] []) = .error (.raised (.programBounds 1))) ∧
    ((st 1 [0x63#8] 1 [] []).ip ≤ (st 1 [0x63#8] 1 [] []).progLen ∧
      loopBody (st 1 [0x63#8] 1 [] []) = .error (.raised (.programBounds 1))) := by decide
theorem witness_ResetForgetsTheRun : (after (runFor 2 atEmit)).isSome = true := by decide
theorem witness_BootAndResetMeetInvariant : 1 ≤ 1 ∧ full.Inv := ⟨by decide, full_inv⟩
theorem witness_StepKeepsInvariant : room.Inv ∧ (after (step room)).isSome = true := ⟨room_inv, by decide⟩
theorem witness_RunningStepHasNextState : full.Inv ∧ full.run = .running := ⟨full_inv, by decide⟩
theorem witness_IpOnlyMovesForward_ConfigurationNeverChanges :
    (after (step room)).map (·.run) = some .running ∧ (after (step full)).map (·.run) = some .halted := by decide
theorem witness_OnlyEmitWritesOutput :
    (after (exec .emit atEmit)).map (·.out) = some [2#8] ∧ (after (exec .halt atHalt)).map (·.out) = some [2#8] := by
  decide
theorem witness_OverflowNeedsALongProgram :
    full.Inv ∧ full.run = .running ∧ after (step full) = some (stopped .stackOverflow full) ∧
    (stopped .stackOverflow full).cause = .stackOverflow := ⟨full_inv, by decide⟩
theorem witness_RunStaysOnTheSweep : room.onSweep ∧ (after (step room)).isSome = true := by
  unfold State.onSweep
  decide
theorem witness_StepExecutesTheNextSweepItem :
    (room.onSweep ∧ room.run = .running ∧ (after (step room)).map (·.run) = some .running ∧
      sweep room.bytesAhead = [.instr (.pushc 2#8), .instr .emit, .instr .halt]) ∧
    ((st 1 [0x63#8] 1 [] []).run = .running ∧ sweep (st 1 [0x63#8] 1 [] []).bytesAhead = []) ∧
    ((st 1 [0x00#8, 0x63#8] 1 [] []).run = .running ∧
      sweep (st 1 [0x00#8, 0x63#8] 1 [] []).bytesAhead = [.missingImmediate]) := by
  unfold State.onSweep
  decide
theorem witness_EveryRunEnds_SweepTellsHowTheRunEnds :
    room.run = .running ∧ room.ip ≤ room.progLen ∧ ∀ v ∈ room.stk, v.isChar :=
  ⟨by decide, by decide, room_inv.chars⟩
theorem witness_PushcThenEmitOutputsTheByte :
    room.run = .running ∧ room.top ≠ room.capacity ∧
    room.holdsAt room.ip (encode (.pushc 2#8) ++ encode .emit) := by
  unfold State.holdsAt
  decide
theorem witness_NopsThenHaltEndCleanly :
    (st 1 [0x62#8, 0x69#8, 0x68#8] 0 [5#8] []).run = .running ∧
    (∀ b ∈ [0x62#8, 0x69#8], isNamedOpcode b = false) ∧
    (st 1 [0x62#8, 0x69#8, 0x68#8] 0 [5#8] []).holdsAt 0 ([0x62#8, 0x69#8] ++ [0x68#8]) := by
  unfold State.holdsAt
  decide
theorem witness_DataNeverDecidesControl :
    atEmit.control = { atEmit with stk := [charValue 9#8] }.control ∧ (∀ v ∈ atEmit.stk, v.isChar) ∧
    (∀ v ∈ { atEmit with stk := [charValue 9#8] }.stk, v.isChar) ∧ (after (step atEmit)).isSome = true :=
  ⟨rfl, fun v hv => ⟨2#8, by simpa [atEmit, st] using hv⟩, fun v hv => ⟨9#8, by simpa using hv⟩, by decide⟩

end Sys2Proof.Tests
end

/-! PROOFS. The statements about the state: what each instruction leaves unchanged, what a step keeps, reset and
STATUS. -/

namespace Sys2Proof.Machine

/-! ## One value more on the stack -/

/-- Two states whose stacks differ by one value on top agree on every other slot. -/
theorem slot_eq_of_stk_concat {s t : State} {v : Value} (h : t.stk = s.stk ++ [v]) {i : Nat} (hi : i ≠ s.top) :
    t.slot i = s.slot i := by
  simp only [State.slot, h]
  rcases Nat.lt_or_gt_of_ne hi with hlt | hgt
  · exact List.getElem?_append_left hlt
  · have hs : s.stk.length < i := hgt
    rw [List.getElem?_eq_none (by simp; omega), List.getElem?_eq_none (by omega)]

theorem top_of_stk_concat {s : State} {l : List Value} {v : Value} (h : s.stk = l ++ [v]) :
    s.top = l.length + 1 := by
  simp [top_def, h]

/-! ## What each instruction answers where its conditions hold -/

theorem execPushc_past {b : Byte} {s : State} (h : s.progLen ≤ s.ip + 1) :
    execPushc b s = .next (takeFault (.programBounds (s.ip + 1)) s) := by
  rw [execPushc, fetchImm8, memRead_outside h]
  rfl

theorem execPushc_full {b : Byte} {s : State} (h : s.ip + 1 < s.progLen) (hc : s.top = s.capacity) :
    execPushc b s = .next (takeFault (.stackOverflow s.top) s) := by
  rw [execPushc, fetchImm8, memRead_inside h, push_full hc]
  rfl

theorem execPushc_room {b : Byte} {s : State} (h : s.ip + 1 < s.progLen) (hc : s.top ≠ s.capacity) :
    execPushc b s = .next { s with stk := s.stk ++ [charValue b], ip := s.ip + 2 } := by
  rw [execPushc, fetchImm8, memRead_inside h, push_room hc]
  rfl

theorem execEmit_empty {s : State} (h : s.stk = []) : execEmit s = .next (takeFault (.stackUnderflow 0) s) := by
  rw [execEmit, pop_empty h]
  rfl

theorem execEmit_concat {s : State} {l : List Value} {v : Value} {b : Byte} (h : s.stk = l ++ [v])
    (hb : low8 v = .ok b) :
    execEmit s = .next { s with stk := l, out := s.out ++ [b], ip := s.ip + 1 } := by
  simp only [execEmit, pop_concat h, bind, Except.bind, hb]
  rfl

theorem exec_halt (s : State) : exec .halt s = .next (haltRun s) := rfl
theorem exec_nop (op : Byte) (s : State) : exec (.nop op) s = .next (advance 1 s) := rfl

/-- The converse of `step_next`: a step from `RUNNING` answers what its case says. -/
theorem step_of_stepCase {s t : State} (hr : s.run = .running) (h : StepCase s t) : step s = .next t := by
  rw [step_running hr]
  cases h with
  | pastEnd h => rw [fetchInstr_past h]; rfl
  | halt h ho => rw [fetchInstr_halt h ho]; exact exec_halt s
  | noImmediate h ho => rw [fetchInstr_noImmediate h ho]; rfl
  | overflow h ho hc => rw [fetchInstr_pushc h ho]; exact execPushc_full h hc
  | pushc h ho hc => rw [fetchInstr_pushc h ho]; exact execPushc_room h hc
  | underflow h ho hs => rw [fetchInstr_emit h ho]; exact execEmit_empty hs
  | emit h ho l v b hs hb => rw [fetchInstr_emit h ho]; exact execEmit_concat hs hb
  | nop h hp he hh => rw [fetchInstr_nop h hp he hh]; exact exec_nop _ s

/-! ## The invariant, one lemma per way a step ends -/

/-- Stopping with a cause, cleanly or by a fault, keeps the invariant. -/
theorem State.Inv.stop {s : State} (h : s.Inv) {c : Cause} (hc : c ≠ .none) :
    State.Inv { s with run := .halted, cause := c } :=
  { h with run_cause := by simp [hc] }

theorem State.Inv.fault {s : State} (h : s.Inv) (r : Raised) : (takeFault r s).Inv :=
  h.stop (raised_cause_ne_none r)

/-- A completed PUSHC keeps the invariant: its two bytes pay for the new value. -/
theorem State.Inv.pushChar {s : State} (h : s.Inv) (hi : s.ip + 1 < s.progLen) (hc : s.top ≠ s.capacity)
    (b : Byte) : State.Inv { s with stk := s.stk ++ [charValue b], ip := s.ip + 2 } where
  progWf := h.progWf
  capacity_pos := h.capacity_pos
  ip_le := hi
  top_le := by
    have htop := h.top_le
    simp only [top_def, List.length_append, List.length_singleton] at *
    omega
  run_cause := h.run_cause
  chars v hv := by
    rcases List.mem_append.mp hv with hv | hv
    · exact h.chars v hv
    · exact ⟨b, List.mem_singleton.mp hv⟩
  bytes_used := by
    have hused := h.bytes_used
    simp only [top_def, List.length_append, List.length_singleton] at *
    omega

/-- A completed EMIT keeps the invariant: the popped value's two bytes and its own byte pay for the output byte. -/
theorem State.Inv.emitTop {s : State} (h : s.Inv) (hi : s.ip < s.progLen) {l : List Value} {v : Value}
    (hs : s.stk = l ++ [v]) (b : Byte) :
    State.Inv { s with stk := l, out := s.out ++ [b], ip := s.ip + 1 } where
  progWf := h.progWf
  capacity_pos := h.capacity_pos
  ip_le := hi
  top_le := by
    have htop := h.top_le
    rw [top_of_stk_concat hs] at htop
    exact (Nat.le_succ _).trans htop
  run_cause := h.run_cause
  chars w hw := h.chars w (by simp [hs, hw])
  bytes_used := by
    have hused := h.bytes_used
    rw [top_of_stk_concat hs] at hused
    simp only [top_def, List.length_append, List.length_singleton]
    omega

theorem State.Inv.advanceOne {s : State} (h : s.Inv) (hi : s.ip < s.progLen) : (advance 1 s).Inv :=
  { h with
    ip_le := hi
    bytes_used := h.bytes_used.trans (Nat.le_succ _) }

/-- Settles O41, by the cases of a step: it stops, or it is a PUSHC, an EMIT or a NOP that completed. -/
theorem stepKeepsInvariant : Obligations.StepKeepsInvariant := by
  intro s t h hst
  obtain ⟨-, hcase⟩ := step_next hst
  cases hcase with
  | pastEnd | noImmediate | overflow | underflow => exact h.fault _
  | halt => exact h.stop (by decide)
  | pushc hi _ hc => exact h.pushChar hi hc _
  | emit hi _ l v b hs => exact h.emitTop hi hs b
  | nop hi => exact h.advanceOne hi

/-! ## Frames -/

/-- Settles O22: a completed PUSHC fills slot `top` alone, and its two faults write `run` and `cause` alone. -/
theorem pushcFrame : Obligations.PushcFrame := by
  intro imm8 s t h
  rcases execPushc_next h with ⟨-, -, rfl⟩ | ⟨-, -, rfl⟩ | ⟨-, rfl⟩
  · exact ⟨rfl, rfl, rfl, rfl, fun _ hi => slot_eq_of_stk_concat rfl hi, fun _ => rfl, .inl ⟨rfl, rfl⟩⟩
  · exact ⟨rfl, rfl, rfl, rfl, fun _ _ => rfl, fun _ => rfl, .inr rfl⟩
  · exact ⟨rfl, rfl, rfl, rfl, fun _ _ => rfl, fun _ => rfl, .inr rfl⟩

/-- Settles O26: a completed EMIT frees slot `top - 1` alone, and its fault writes `run` and `cause` alone. -/
theorem emitFrame : Obligations.EmitFrame := by
  intro s t h
  rcases execEmit_next h with ⟨l, v, b, hs, -, rfl⟩ | ⟨-, rfl⟩
  · refine ⟨rfl, rfl, rfl, fun i hi => ?_, fun _ => rfl, .inl ⟨rfl, rfl⟩⟩
    have hil : i ≠ l.length := fun e => hi (by rw [top_of_stk_concat hs, e])
    exact (slot_eq_of_stk_concat hs hil).symm
  · exact ⟨rfl, rfl, rfl, fun _ _ => rfl, fun _ => rfl, .inr rfl⟩

/-- Settles O30: HALT writes `run` and `cause` alone, NOP `ip` alone. -/
theorem nopHaltFrame : Obligations.NopHaltFrame := by
  rintro i s t (rfl | ⟨op, rfl⟩) h
  · rw [exec_halt] at h
    cases h
    exact ⟨rfl, rfl, rfl, rfl, fun _ => rfl, fun _ => rfl, fun _ => rfl, nofun⟩
  · rw [exec_nop] at h
    cases h
    exact ⟨rfl, rfl, rfl, rfl, fun _ => rfl, fun _ => rfl, nofun, fun _ => ⟨rfl, rfl⟩⟩

/-- Settles O45, by the instruction. -/
theorem onlyEmitWritesOutput : Obligations.OnlyEmitWritesOutput := by
  intro i s t h
  cases i with
  | halt =>
    rw [exec_halt] at h
    cases h
    exact .inl rfl
  | pushc imm8 =>
    obtain ⟨hout, -⟩ := pushcFrame imm8 s t h
    exact .inl hout
  | emit =>
    rcases execEmit_next h with ⟨l, v, b, -, -, rfl⟩ | ⟨-, rfl⟩
    · exact .inr ⟨rfl, b, rfl⟩
    · exact .inl rfl
  | nop op =>
    rw [exec_nop] at h
    cases h
    exact .inl rfl

/-! ## Data and control -/

/-- `State.control` field by field. -/
theorem control_eq_iff {s t : State} :
    s.control = t.control ↔
      s.run = t.run ∧ s.cause = t.cause ∧ s.ip = t.ip ∧ s.top = t.top ∧ s.out.length = t.out.length ∧
      s.prog = t.prog ∧ s.progLen = t.progLen ∧ s.capacity = t.capacity := by
  simp [State.control]

/-- Character values, one at least, end in one that has low eight bits. -/
theorem exists_concat_low8 {stk : List Value} (hch : ∀ v ∈ stk, v.isChar) (hne : stk ≠ []) :
    ∃ l v b, stk = l ++ [v] ∧ low8 v = .ok b := by
  obtain ⟨b, hb⟩ := hch _ (List.getLast_mem hne)
  exact ⟨_, _, b, (List.dropLast_append_getLast hne).symm, by rw [hb, low8_charValue]⟩

/-- Two states with one control part differ in the stack's values and the output's bytes alone. -/
theorem eq_with_data_of_control_eq {s s' : State} (h : s.control = s'.control) :
    s' = { s with stk := s'.stk, out := s'.out } ∧ s'.stk.length = s.stk.length ∧
      s'.out.length = s.out.length := by
  obtain ⟨hrun, hcause, hip, htop, hout, hprog, hlen, hcap⟩ := control_eq_iff.mp h
  exact ⟨by simp [*], htop.symm, hout.symm⟩

/-- The conditions of a step's cases speak of the control part alone: a state with as many values on its stack, all of
them character values, and as many bytes in its output takes the same case. -/
theorem stepCase_with_data {s t : State} (h : StepCase s t) {stk : List Value} {out : List Byte}
    (hstk : stk.length = s.stk.length) (hout : out.length = s.out.length) (hch : ∀ v ∈ stk, v.isChar) :
    ∃ t', StepCase { s with stk := stk, out := out } t' ∧ t'.control = t.control := by
  have htop : State.top { s with stk := stk, out := out } = s.top := hstk
  cases h with
  | pastEnd h => exact ⟨_, .pastEnd h, by simp [control_eq_iff, htop, hout]⟩
  | halt h ho => exact ⟨_, .halt h ho, by simp [control_eq_iff, htop, hout]⟩
  | noImmediate h ho => exact ⟨_, .noImmediate h ho, by simp [control_eq_iff, htop, hout]⟩
  | overflow h ho hc => exact ⟨_, .overflow h ho (htop.trans hc), by simp [control_eq_iff, htop, hout]⟩
  | pushc h ho hc => exact ⟨_, .pushc h ho (htop ▸ hc), by simp [control_eq_iff, top_def, hstk, hout]⟩
  | underflow h ho hs =>
    have hnil : stk = [] := List.eq_nil_of_length_eq_zero (by simp [hstk, hs])
    exact ⟨_, .underflow h ho hnil, by simp [control_eq_iff, Raised.cause, htop, hout]⟩
  | emit h ho l v b hs hb =>
    have hlen : stk.length = l.length + 1 := by simp [hstk, hs]
    obtain ⟨l', v', b', rfl, hb'⟩ := exists_concat_low8 hch (List.ne_nil_of_length_eq_add_one hlen)
    have hl : l'.length = l.length := by simpa using hlen
    exact ⟨_, .emit (s := { s with stk := l' ++ [v'], out := out }) h ho l' v' b' rfl hb',
      by simp [control_eq_iff, top_def, hl, hout]⟩
  | nop h hp he hh => exact ⟨_, .nop h hp he hh, by simp [control_eq_iff, htop, hout]⟩

/-- Settles O52: the other state takes the same case of the step, which answers a next state in `RUNNING`. -/
theorem dataNeverDecidesControl : Obligations.DataNeverDecidesControl := by
  intro s s' t hc _ hch h
  obtain ⟨hr, hcase⟩ := step_next h
  obtain ⟨hs', hstk, hout⟩ := eq_with_data_of_control_eq hc
  obtain ⟨t', hcase', ht'⟩ := stepCase_with_data hcase hstk hout hch
  exact ⟨t', hs' ▸ step_of_stepCase hr hcase', ht'⟩

/-! ## HALTED, reset and STATUS -/

/-- Settles O11. -/
theorem haltedHasNoStep : Obligations.HaltedHasNoStep := fun _ => step_halted

/-- Settles O34. -/
theorem resetValues : Obligations.ResetValues :=
  ⟨rfl, rfl, rfl, rfl, fun _ => rfl, rfl, rfl⟩

/-- The three fields of a byte laid out as STATUS is, for every content of them. -/
theorem extractLsb'_status_layout (c : BitVec 3) (r : BitVec 1) :
    (0#4 ++ c ++ r).extractLsb' 0 1 = r ∧ (0#4 ++ c ++ r).extractLsb' 1 3 = c ∧
    (0#4 ++ c ++ r).extractLsb' 4 4 = 0#4 := by
  revert c r
  decide

theorem bit_eq_ite (r : RunState) : r.bit = if r = .halted then 1#1 else 0#1 := by
  cases r <;> rfl

/-- Settles O37. -/
theorem statusWordFields : Obligations.StatusWordFields := fun s => by
  rw [← bit_eq_ite]
  exact extractLsb'_status_layout s.cause.code s.run.bit

/-- Settles O38. -/
theorem causeCodes : Obligations.CauseCodes :=
  ⟨rfl, rfl, rfl, rfl, rfl, fun c => by cases c <;> decide⟩

/-- Settles O39. -/
theorem resetMeetsInvariant : Obligations.ResetMeetsInvariant where
  progWf := reset_progWf
  capacity_pos := by decide
  ip_le := Nat.le_refl 0
  top_le := Nat.zero_le _
  run_cause := by decide
  chars _ hv := nomatch hv
  bytes_used := Nat.le_refl 0

end Sys2Proof.Machine

/-! PROOFS. The statements about the program buffer: the bounds-checked read, the load read back, and that no step writes
the configuration. -/

namespace Sys2Proof.Machine

/-! ## A load read back -/

/-- Read after load: the buffer of bytes placed from `a` on holds the byte of index `k` at offset `a + k`. -/
theorem byte_ofBytes {bs : List Byte} {k : Nat} (h : k < bs.length) (a : Nat) :
    (Memory.ofBytes a bs).byte (a + k) = bs[k] := by
  induction bs generalizing a k with
  | nil => exact absurd h (Nat.not_lt_zero k)
  | cons b bs ih =>
    rw [Memory.ofBytes, byte_cons fun c hc => (mem_ofBytes hc).1]
    cases k with
    | zero => simp
    | succ k =>
      have hk : a + (k + 1) = a + 1 + k := by omega
      rw [if_neg (by omega), hk]
      exact ih (Nat.lt_of_succ_lt_succ h) (a + 1)

theorem boot_byte {bs : List Byte} {a : Nat} (h : a < bs.length) (n : Nat) : (boot n bs).prog.byte a = bs[a] := by
  simpa using byte_ofBytes h 0

/-- All bytes of a loaded buffer are the bytes that were loaded. -/
theorem programBytes_boot (n : Nat) (bs : List Byte) : programBytes (boot n bs) = bs := by
  refine List.ext_getElem (by simp [programBytes]) fun a _ h => ?_
  rw [← boot_byte h n]
  simp [programBytes]

/-- Settles O13: the two cases of the bounds check. -/
theorem readIsBoundsChecked : Obligations.ReadIsBoundsChecked :=
  fun _ _ => ⟨memRead_outside, memRead_inside⟩

/-- Settles O14: below the number of loaded bytes the read gives `boot_byte`, from there on it is out of bounds. -/
theorem loadedProgramReadsBack : Obligations.LoadedProgramReadsBack := fun n bs =>
  ⟨programBytes_boot n bs,
    fun _ h => memRead_ok_iff.mpr ⟨h, boot_byte h n⟩,
    fun _ h => memRead_outside h⟩

/-! ## The configuration -/

/-- No case of a step writes the configuration of 10_state.md R12. -/
theorem StepCase.config_eq {s t : State} (h : StepCase s t) :
    t.prog = s.prog ∧ t.progLen = s.progLen ∧ t.capacity = s.capacity := by
  cases h <;> exact ⟨rfl, rfl, rfl⟩

/-- Settles O44: the read depends on the configuration alone, which no case of a step writes. -/
theorem configurationNeverChanges : Obligations.ConfigurationNeverChanges := by
  intro s t h
  obtain ⟨-, hcase⟩ := step_next h
  obtain ⟨hprog, hlen, hcap⟩ := hcase.config_eq
  exact ⟨hprog, hlen, hcap, memRead_congr hprog hlen⟩

end Sys2Proof.Machine

/-! PROOFS. The statements about the encoding: decoder and encoder, the linear sweep, the assembler, and the machine on
the sweep. -/

namespace Sys2Proof.Machine

/-! ## The decoder on the rows of the opcode map -/

theorem wf_nop_iff {op : Byte} : (Instr.nop op).wf = true ↔ op ≠ 0x63#8 ∧ op ≠ 0x65#8 ∧ op ≠ 0x68#8 := by
  simp [Instr.wf, isNamedOpcode, and_assoc]

theorem decode_pushc (imm8 : Byte) (rest : List Byte) :
    decode (0x63#8 :: imm8 :: rest) = .ok (.pushc imm8, rest) := rfl

theorem decode_emit (rest : List Byte) : decode (0x65#8 :: rest) = .ok (.emit, rest) := rfl

theorem decode_halt (rest : List Byte) : decode (0x68#8 :: rest) = .ok (.halt, rest) := rfl

theorem decode_nop {op : Byte} (h : (Instr.nop op).wf = true) (rest : List Byte) :
    decode (op :: rest) = .ok (.nop op, rest) := by
  obtain ⟨hp, he, hh⟩ := wf_nop_iff.mp h
  simp [decode, dispatch, hp, he, hh]

theorem decode_encode_append {i : Instr} (h : i.wf = true) (rest : List Byte) :
    decode (encode i ++ rest) = .ok (i, rest) := by
  cases i with
  | halt => exact decode_halt rest
  | pushc imm8 => exact decode_pushc imm8 rest
  | emit => exact decode_emit rest
  | nop op => exact decode_nop h rest

/-! ## What bytes can begin with -/

theorem encode_length (i : Instr) : (encode i).length = 1 ∨ (encode i).length = 2 := by
  cases i <;> simp [encode]

/-- Bytes are none, a push-char opcode without its immediate, or begin with a well-formed instruction
(30_encoding.md R64, R65). -/
theorem bytes_cases (bs : List Byte) :
    bs = [] ∨ bs = [0x63#8] ∨ ∃ i rest, i.wf = true ∧ bs = encode i ++ rest := by
  rcases bs with _ | ⟨op, rest⟩
  · exact .inl rfl
  by_cases hp : op = 0x63#8
  · subst hp
    rcases rest with _ | ⟨b, rest⟩
    · exact .inr (.inl rfl)
    · exact .inr (.inr ⟨.pushc b, rest, rfl, rfl⟩)
  by_cases he : op = 0x65#8
  · exact .inr (.inr ⟨.emit, rest, rfl, by rw [he]; rfl⟩)
  by_cases hh : op = 0x68#8
  · exact .inr (.inr ⟨.halt, rest, rfl, by rw [hh]; rfl⟩)
  · exact .inr (.inr ⟨.nop op, rest, wf_nop_iff.mpr ⟨hp, he, hh⟩, rfl⟩)

/-- Induction over bytes, one instruction at a time. -/
theorem bytes_induction {P : List Byte → Prop} (nil : P []) (noImmediate : P [0x63#8])
    (instr : ∀ i rest, i.wf = true → P rest → P (encode i ++ rest)) (bs : List Byte) : P bs := by
  rcases bytes_cases bs with hbs | hbs | ⟨i, rest, hi, hbs⟩
  · exact hbs ▸ nil
  · exact hbs ▸ noImmediate
  · exact hbs ▸ instr i rest hi (bytes_induction nil noImmediate instr rest)
termination_by bs.length
decreasing_by
  have hlen := encode_length i
  rw [hbs, List.length_append]
  omega

/-- Settles O4: well-formed encodings decode (`decode_encode_append`), and bytes that begin with none do not. -/
theorem decodeInvertsEncode : Obligations.DecodeInvertsEncode := by
  refine fun bs i rest => ⟨fun h => ?_, fun ⟨hi, hbs⟩ => hbs ▸ decode_encode_append hi rest⟩
  rcases bytes_cases bs with rfl | rfl | ⟨j, rest', hj, rfl⟩
  · cases h
  · cases h
  · rw [decode_encode_append hj] at h
    cases h
    exact ⟨hj, rfl⟩

/-- Settles O5, by the three ways bytes can begin. -/
theorem decodeRefusesOnlyMissingBytes : Obligations.DecodeRefusesOnlyMissingBytes := by
  intro bs e
  constructor
  · intro h
    rcases bytes_cases bs with rfl | rfl | ⟨i, rest, hi, rfl⟩
    · cases h
      exact .inl ⟨rfl, rfl⟩
    · cases h
      exact .inr ⟨rfl, rfl⟩
    · rw [decode_encode_append hi] at h
      cases h
  · rintro (⟨rfl, rfl⟩ | ⟨rfl, rfl⟩) <;> rfl

/-- Settles O3. -/
theorem decodeIsTheOpcodeMap : Obligations.DecodeIsTheOpcodeMap :=
  ⟨decode_pushc, decode_emit, decode_halt,
    fun _ rest hp he hh => decode_nop (wf_nop_iff.mpr ⟨hp, he, hh⟩) rest⟩

/-- Settles O1: each word falls under its row of the opcode map. -/
theorem writtenOutWordsDecode : Obligations.WrittenOutWordsDecode :=
  ⟨decode_pushc _ _, decode_emit _, decode_halt _, decode_nop (by decide) _, decode_nop (by decide) _,
    decode_nop (by decide) _⟩

/-! ## The linear sweep -/

theorem sweep_oneByte {op : Byte} (h : op ≠ 0x63#8) (rest : List Byte) :
    sweep (op :: rest) = .instr (oneByteInstr op) :: sweep rest := by
  cases rest <;> simp [sweep, h]

theorem sweepOffsets_oneByte {op : Byte} (h : op ≠ 0x63#8) (a : Nat) (rest : List Byte) :
    sweepOffsets a (op :: rest) = a :: sweepOffsets (a + 1) rest := by
  cases rest <;> simp [sweepOffsets, h]

theorem oneByteInstr_nop {op : Byte} (h : (Instr.nop op).wf = true) : oneByteInstr op = .nop op := by
  obtain ⟨-, he, hh⟩ := wf_nop_iff.mp h
  simp [oneByteInstr, he, hh]

theorem sweep_encode_append {i : Instr} (h : i.wf = true) (rest : List Byte) :
    sweep (encode i ++ rest) = .instr i :: sweep rest := by
  cases i with
  | halt => exact sweep_oneByte (by decide) rest
  | pushc imm8 => exact if_pos rfl
  | emit => exact sweep_oneByte (by decide) rest
  | nop op =>
    have hs := sweep_oneByte (wf_nop_iff.mp h).1 rest
    rwa [oneByteInstr_nop h] at hs

theorem sweepOffsets_encode_append {i : Instr} (h : i.wf = true) (a : Nat) (rest : List Byte) :
    sweepOffsets a (encode i ++ rest) = a :: sweepOffsets (a + (encode i).length) rest := by
  cases i with
  | halt => exact sweepOffsets_oneByte (by decide) a rest
  | pushc imm8 => exact if_pos rfl
  | emit => exact sweepOffsets_oneByte (by decide) a rest
  | nop op => exact sweepOffsets_oneByte (wf_nop_iff.mp h).1 a rest

theorem sweep_flatMap_encode_append {is : List Instr} (h : ∀ i ∈ is, i.wf = true) (rest : List Byte) :
    sweep (is.flatMap encode ++ rest) = is.map .instr ++ sweep rest := by
  induction is with
  | nil => rfl
  | cons i is ih =>
    obtain ⟨hi, his⟩ := List.forall_mem_cons.mp h
    rw [List.flatMap_cons, List.append_assoc, sweep_encode_append hi, ih his]
    rfl

/-- Settles O6: nothing is left after the last instruction. -/
theorem sweepOfEncodedProgram : Obligations.SweepOfEncodedProgram := fun is h => by
  simpa [sweep] using sweep_flatMap_encode_append h []

theorem start_mem_sweepOffsets (a : Nat) (bs : List Byte) : a ∈ sweepOffsets a bs := by
  rcases bytes_cases bs with rfl | rfl | ⟨i, rest, hi, rfl⟩
  · exact List.mem_singleton_self a
  · exact List.mem_singleton_self a
  · simp [sweepOffsets_encode_append hi]

/-- The offsets of the sweep are those with whole instructions before them. -/
theorem mem_sweepOffsets_iff {x a : Nat} {bs : List Byte} :
    x ∈ sweepOffsets a bs ↔
      ∃ (is : List Instr) (rest : List Byte), (∀ i ∈ is, i.wf = true) ∧ bs = is.flatMap encode ++ rest ∧
        x = a + (is.flatMap encode).length := by
  constructor
  · intro h
    induction bs using bytes_induction generalizing a with
    | nil => exact ⟨[], _, nofun, rfl, List.mem_singleton.mp h⟩
    | noImmediate => exact ⟨[], _, nofun, rfl, List.mem_singleton.mp h⟩
    | instr i rest hi ih =>
      rw [sweepOffsets_encode_append hi] at h
      rcases List.mem_cons.mp h with rfl | h
      · exact ⟨[], _, nofun, rfl, rfl⟩
      · obtain ⟨is, rest', his, rfl, rfl⟩ := ih h
        exact ⟨i :: is, rest', List.forall_mem_cons.mpr ⟨hi, his⟩, by simp, by simp [Nat.add_assoc]⟩
  · rintro ⟨is, rest, his, rfl, rfl⟩
    induction is generalizing a with
    | nil => exact start_mem_sweepOffsets a rest
    | cons i is ih =>
      obtain ⟨hi, his⟩ := List.forall_mem_cons.mp his
      rw [List.flatMap_cons, List.append_assoc, sweepOffsets_encode_append hi, List.length_append, ← Nat.add_assoc]
      exact List.mem_cons_of_mem _ (ih his)

/-! ## The assembler -/

theorem literal_byte?_toNat (b : Byte) : (Literal.num b.toNat).byte? = some b := by
  simp [Literal.byte?, b.isLt]

theorem asmBytes_disasm {i : Instr} (h : i.wf = true) : asmBytes (disasm i) = some (encode i) := by
  cases i with
  | halt => rfl
  | pushc imm8 => simp [disasm, asmBytes, literal_byte?_toNat]
  | emit => rfl
  | nop op =>
    by_cases h0 : op = 0x00#8
    · subst h0
      rfl
    · have hn : isNamedOpcode op = false := by simpa [Instr.wf] using h
      simp [disasm, asmBytes, literal_byte?_toNat, h0, hn]

/-- Settles O7, by induction on the program. -/
theorem assembleOfDisassembly : Obligations.AssembleOfDisassembly := by
  intro is h
  induction is with
  | nil => rfl
  | cons i is ih =>
    obtain ⟨hi, his⟩ := List.forall_mem_cons.mp h
    simp [assemble, asmBytes_disasm hi, ih his]

/-! ## The bytes ahead -/

theorem drop_programBytes_of_le {s : State} {a : Nat} (h : s.progLen ≤ a) : (programBytes s).drop a = [] :=
  List.drop_eq_nil_of_le (by simpa [programBytes] using h)

theorem drop_programBytes_of_lt {s : State} {a : Nat} (h : a < s.progLen) :
    (programBytes s).drop a = s.prog.byte a :: (programBytes s).drop (a + 1) := by
  rw [List.drop_eq_getElem_cons (by simpa [programBytes] using h)]
  simp [programBytes]

theorem bytesAhead_length (s : State) : s.bytesAhead.length = s.progLen - s.ip := by
  simp [State.bytesAhead, programBytes]

/-- The decoder is given the first two of the bytes ahead (log 9). -/
theorem fetchWindow_eq_take (s : State) : fetchWindow s = s.bytesAhead.take 2 := by
  unfold State.bytesAhead
  rcases Nat.lt_or_ge s.ip s.progLen with h0 | h0
  · rcases Nat.lt_or_ge (s.ip + 1) s.progLen with h1 | h1
    · rw [fetchWindow_two h1, drop_programBytes_of_lt h0, drop_programBytes_of_lt h1]
      rfl
    · rw [fetchWindow_one (by omega), drop_programBytes_of_lt h0, drop_programBytes_of_le h1]
      rfl
  · rw [fetchWindow_none h0, drop_programBytes_of_le h0]
    rfl

/-- `ip` is on the sweep when what stands before the bytes ahead is whole instructions. -/
theorem onSweep_iff {s : State} :
    s.onSweep ↔
      ∃ is : List Instr, (∀ i ∈ is, i.wf = true) ∧ programBytes s = is.flatMap encode ++ s.bytesAhead ∧
        s.ip = (is.flatMap encode).length := by
  rw [State.onSweep, mem_sweepOffsets_iff, State.bytesAhead]
  constructor
  · rintro ⟨is, rest, his, hbs, hip⟩
    rw [Nat.zero_add] at hip
    exact ⟨is, his, by rw [hbs, hip, List.drop_left], hip⟩
  · rintro ⟨is, his, hbs, hip⟩
    exact ⟨is, _, his, hbs, by rw [Nat.zero_add, hip]⟩

/-! ## The step, by the bytes ahead -/

theorem step_of_bytesAhead_nil {s : State} (hr : s.run = .running) (h : s.bytesAhead = []) :
    step s = .next (takeFault (.programBounds s.ip) s) := by
  have hlen := bytesAhead_length s
  rw [h, List.length_nil] at hlen
  exact step_of_stepCase hr (.pastEnd (by omega))

theorem step_of_bytesAhead_noImmediate {s : State} (hr : s.run = .running) (h : s.bytesAhead = [0x63#8]) :
    step s = .next (takeFault (.programBounds (s.ip + 1)) s) := by
  rw [step_running hr, fetchInstr, fetchWindow_eq_take, h]
  rfl

/-- The fetch finds the instruction the bytes ahead begin with. -/
theorem fetchInstr_of_bytesAhead {s : State} {i : Instr} {rest : List Byte} (hi : i.wf = true)
    (h : s.bytesAhead = encode i ++ rest) : fetchInstr s = .ok i := by
  have hlen : (encode i).length ≤ 2 := by
    rcases encode_length i with hlen | hlen <;> omega
  rw [fetchInstr, fetchWindow_eq_take, h, List.take_append, List.take_of_length_le hlen, decode_encode_append hi]

theorem step_of_bytesAhead_instr {s : State} {i : Instr} {rest : List Byte} (hr : s.run = .running)
    (hi : i.wf = true) (h : s.bytesAhead = encode i ++ rest) : step s = exec i s := by
  rw [step_running hr, fetchInstr_of_bytesAhead hi h]

/-- An instruction stops the run where it stands, or moves `ip` past its own bytes (30_encoding.md R59, R68). -/
theorem exec_next_ip {i : Instr} {s t : State} (h : exec i s = .next t) :
    (t.run = .halted ∧ t.ip = s.ip) ∨ t.ip = s.ip + (encode i).length := by
  cases i with
  | halt =>
    rw [exec_halt] at h
    cases h
    exact .inl ⟨rfl, rfl⟩
  | pushc imm8 =>
    rcases execPushc_next h with ⟨-, -, rfl⟩ | ⟨-, -, rfl⟩ | ⟨-, rfl⟩
    · exact .inr rfl
    · exact .inl ⟨rfl, rfl⟩
    · exact .inl ⟨rfl, rfl⟩
  | emit =>
    rcases execEmit_next h with ⟨l, v, b, -, -, rfl⟩ | ⟨-, rfl⟩
    · exact .inr rfl
    · exact .inl ⟨rfl, rfl⟩
  | nop op =>
    rw [exec_nop] at h
    cases h
    exact .inr rfl

theorem step_programBytes {s t : State} (h : step s = .next t) : programBytes t = programBytes s := by
  obtain ⟨hprog, hlen, -, -⟩ := configurationNeverChanges s t h
  rw [programBytes, programBytes, hprog, hlen]

/-- A step stops the run where it stands, or takes one well-formed instruction off the bytes ahead. -/
theorem step_next_bytesAhead {s t : State} (h : step s = .next t) :
    (t.run = .halted ∧ t.ip = s.ip) ∨
    ∃ i : Instr, i.wf = true ∧ s.bytesAhead = encode i ++ t.bytesAhead ∧ t.ip = s.ip + (encode i).length := by
  obtain ⟨hr, -⟩ := step_next h
  rcases bytes_cases s.bytesAhead with hb | hb | ⟨i, rest, hi, hb⟩
  · rw [step_of_bytesAhead_nil hr hb] at h
    cases h
    exact .inl ⟨rfl, rfl⟩
  · rw [step_of_bytesAhead_noImmediate hr hb] at h
    cases h
    exact .inl ⟨rfl, rfl⟩
  · have hexec : exec i s = .next t := step_of_bytesAhead_instr hr hi hb ▸ h
    refine (exec_next_ip hexec).imp_right fun hip => ⟨i, hi, ?_, hip⟩
    have hrest : t.bytesAhead = rest := by
      rw [State.bytesAhead, step_programBytes h, hip, ← List.drop_drop, ← State.bytesAhead, hb, List.drop_left]
    rw [hb, hrest]

/-- Settles O47: the instruction a step takes off the bytes ahead joins the whole instructions before `ip`. -/
theorem runStaysOnTheSweep : Obligations.RunStaysOnTheSweep := by
  refine ⟨fun n bs => start_mem_sweepOffsets 0 _, fun s t hs h => ?_⟩
  rcases step_next_bytesAhead h with ⟨-, hip⟩ | ⟨i, hi, hb, hip⟩
  · rwa [State.onSweep, step_programBytes h, hip]
  · obtain ⟨is, his, hbytes, hip0⟩ := onSweep_iff.mp hs
    refine onSweep_iff.mpr ⟨is ++ [i], ?_, ?_, ?_⟩
    · exact List.forall_mem_append.mpr ⟨his, List.forall_mem_singleton.mpr hi⟩
    · rw [step_programBytes h, hbytes, hb]
      simp
    · rw [hip, hip0]
      simp

/-- Settles O53: the sweep splits at every whole instruction (`sweep_flatMap_encode_append`), and a step in `RUNNING`
takes the first item off (`step_next_bytesAhead`). -/
theorem stepExecutesTheNextSweepItem : Obligations.StepExecutesTheNextSweepItem := by
  constructor
  · intro s hs
    obtain ⟨is, his, hbytes, -⟩ := onSweep_iff.mp hs
    exact ⟨is.map .instr, by rw [hbytes, sweep_flatMap_encode_append his]⟩
  · intro s hr
    rcases bytes_cases s.bytesAhead with hb | hb | ⟨i, rest, hi, hb⟩
    · rw [hb]
      exact step_of_bytesAhead_nil hr hb
    · rw [hb]
      exact ⟨rfl, step_of_bytesAhead_noImmediate hr hb⟩
    · have hsweep : sweep s.bytesAhead = .instr i :: sweep rest := by rw [hb, sweep_encode_append hi]
      rw [hsweep]
      refine ⟨step_of_bytesAhead_instr hr hi hb, fun t h ht => ?_⟩
      rcases step_next_bytesAhead h with ⟨hhalt, -⟩ | ⟨j, hj, hbj, -⟩
      · rw [hhalt] at ht
        cases ht
      · rw [hbj, sweep_encode_append hj] at hsweep
        exact (List.cons.inj hsweep).2

/-! ## PUSHC then EMIT -/

theorem holdsAt_cons {s : State} {a : Nat} {b : Byte} {bs : List Byte} :
    s.holdsAt a (b :: bs) ↔ (a < s.progLen ∧ s.prog.byte a = b) ∧ s.holdsAt (a + 1) bs := by
  rw [← memRead_ok_iff]
  constructor
  · intro h
    refine ⟨h 0 (Nat.zero_lt_succ _), fun k hk => ?_⟩
    have hk' : a + 1 + k = a + (k + 1) := by omega
    exact hk' ▸ h (k + 1) (Nat.succ_lt_succ hk)
  · rintro ⟨h0, h⟩ (_ | k) hk
    · exact h0
    · have hk' : a + (k + 1) = a + 1 + k := by omega
      exact hk' ▸ h k (Nat.lt_of_succ_lt_succ hk)

theorem runFor_succ_of_next {s t : State} (h : step s = .next t) (k : Nat) : runFor (k + 1) s = runFor k t := by
  rw [runFor, h]

/-- Settles O50: PUSHC puts the character value of `b` on top, and EMIT takes it off and writes its byte. -/
theorem pushcThenEmitOutputsTheByte : Obligations.PushcThenEmitOutputsTheByte := by
  intro s b hr hroom h
  obtain ⟨⟨-, hop⟩, h⟩ := holdsAt_cons.mp h
  obtain ⟨⟨himm, hb⟩, h⟩ := holdsAt_cons.mp h
  obtain ⟨⟨hemit, hop'⟩, -⟩ := holdsAt_cons.mp h
  have hpushc := step_of_stepCase hr (.pushc himm hop hroom)
  rw [hb] at hpushc
  rw [runFor_succ_of_next hpushc]
  refine runFor_succ_of_next (step_of_stepCase ?_ (.emit hemit hop' s.stk _ b rfl (low8_charValue b))) 0
  exact hr

end Sys2Proof.Machine

/-! PROOFS. The statements about the value stack: push, pop and peek by slots, sequences of pushes and pops, and the
program length an overflow needs. -/

namespace Sys2Proof.Machine

/-! ## The top slot -/

theorem slot_top_of_stk_concat {s t : State} {v : Value} (h : t.stk = s.stk ++ [v]) : t.slot s.top = some v := by
  rw [State.slot, h, top_def]
  exact List.getElem?_concat_length

theorem top_eq_zero_iff {s : State} : s.top = 0 ↔ s.stk = [] :=
  List.length_eq_zero_iff

/-- A stack that is not empty is some value on top of the others. -/
theorem exists_stk_concat_of_top_ne_zero {s : State} (h : s.top ≠ 0) : ∃ l v, s.stk = l ++ [v] :=
  (List.eq_nil_or_concat' s.stk).resolve_left (h ∘ top_eq_zero_iff.mpr)

/-- Slot `top - 1` holds the last value of the stack, and the slots below stay when that value is taken off. -/
theorem slot_of_stk_concat {s : State} {l : List Value} {v : Value} (h : s.stk = l ++ [v]) :
    s.slot (s.top - 1) = some v ∧ ∀ i, i < s.top - 1 → State.slot { s with stk := l } i = s.slot i := by
  have hstk : s.stk = State.stk { s with stk := l } ++ [v] := h
  have htop : s.top - 1 = State.top { s with stk := l } := by rw [top_of_stk_concat h]; rfl
  rw [htop]
  exact ⟨slot_top_of_stk_concat hstk, fun i hi => (slot_eq_of_stk_concat hstk hi.ne).symm⟩

/-! ## push, pop and peek -/

/-- Settles O15: `push_full`, and the slots of a stack with one value more. -/
theorem pushWritesSlotTop : Obligations.PushWritesSlotTop := fun _ _ =>
  ⟨push_full, fun h =>
    ⟨_, push_room h, slot_top_of_stk_concat rfl, top_of_stk_concat rfl, fun _ => slot_eq_of_stk_concat rfl, rfl⟩⟩

/-- Settles O16: `pop_empty`, and the slots of a stack with one value less. -/
theorem popTakesTopSlot : Obligations.PopTakesTopSlot := by
  refine fun s => ⟨fun h => pop_empty (top_eq_zero_iff.mp h), fun h => ?_⟩
  obtain ⟨l, v, hs⟩ := exists_stk_concat_of_top_ne_zero h
  obtain ⟨htop, hbelow⟩ := slot_of_stk_concat hs
  exact ⟨v, _, pop_concat hs, htop, by rw [top_of_stk_concat hs]; rfl, hbelow, rfl⟩

/-- Settles O17. -/
theorem peekReadsTopSlot : Obligations.PeekReadsTopSlot := by
  refine fun s => ⟨fun h => peek_empty (top_eq_zero_iff.mp h), fun h => ?_⟩
  obtain ⟨l, v, hs⟩ := exists_stk_concat_of_top_ne_zero h
  obtain ⟨htop, -⟩ := slot_of_stk_concat hs
  exact ⟨v, peek_concat hs, htop⟩

/-! ## Sequences of pushes and pops -/

/-- A push that has room, first of several. -/
theorem pushAll_cons_of_room {s : State} (h : s.top ≠ s.capacity) (v : Value) (vs : List Value) :
    pushAll (v :: vs) s = pushAll vs { s with stk := s.stk ++ [v] } := by
  rw [pushAll, push_room h]
  rfl

/-- Values that all fit are appended in the order pushed. -/
theorem pushAll_room {s : State} {vs : List Value} (h : s.top + vs.length ≤ s.capacity) :
    pushAll vs s = .ok { s with stk := s.stk ++ vs } := by
  induction vs generalizing s with
  | nil => rw [List.append_nil]; rfl
  | cons v vs ih =>
    rw [List.length_cons] at h
    have htop : State.top { s with stk := s.stk ++ [v] } = s.top + 1 := top_of_stk_concat rfl
    have hfit : State.top { s with stk := s.stk ++ [v] } + vs.length ≤ s.capacity := by omega
    rw [pushAll_cons_of_room (by omega), ih hfit, List.append_assoc]
    rfl

/-- Values that do not all fit fill the stack, and the next push overflows. -/
theorem pushAll_full {s : State} {vs : List Value} (hle : s.top ≤ s.capacity)
    (h : s.capacity < s.top + vs.length) : pushAll vs s = .error (.raised (.stackOverflow s.capacity)) := by
  induction vs generalizing s with
  | nil => exact absurd h (Nat.not_lt.mpr hle)
  | cons v vs ih =>
    rw [List.length_cons] at h
    by_cases hc : s.top = s.capacity
    · rw [pushAll, push_full hc, hc]
      rfl
    · have htop : State.top { s with stk := s.stk ++ [v] } = s.top + 1 := top_of_stk_concat rfl
      have hle' : State.top { s with stk := s.stk ++ [v] } ≤ s.capacity := by omega
      have hover : s.capacity < State.top { s with stk := s.stk ++ [v] } + vs.length := by omega
      rw [pushAll_cons_of_room hc]
      exact ih hle' hover

/-- Popping as many values as stand above `l` gives them from the top down and leaves `l`. -/
theorem popN_append {s : State} {l vs : List Value} (h : s.stk = l ++ vs) :
    popN vs.length s = .ok (vs.reverse, { s with stk := l }) := by
  induction vs using List.reverseRecOn generalizing s with
  | nil =>
    rw [List.append_nil] at h
    rw [← h]
    rfl
  | append_singleton vs v ih =>
    rw [← List.append_assoc] at h
    have hrest : popN vs.length { s with stk := l ++ vs } = .ok (vs.reverse, { s with stk := l }) := ih rfl
    simp [popN, pop_concat h, hrest, Except.bind, Except.map]

/-- Settles O18: the pushes append the values (`pushAll_room`) and the pops take them off again (`popN_append`). -/
theorem pushesThenPopsAreLifo : Obligations.PushesThenPopsAreLifo := fun _ _ hle =>
  ⟨fun h => ⟨_, pushAll_room h, List.length_append, popN_append rfl⟩, pushAll_full hle⟩

/-! ## The program an overflow needs -/

theorem State.Inv.cause_of_running {s : State} (h : s.Inv) (hr : s.run = .running) : s.cause = .none := by
  by_contra hc
  rw [h.run_cause.mpr hc] at hr
  cases hr

/-- A step that newly records STACK_OVERFLOW is a PUSHC on a full stack, its immediate inside the buffer
(41_dispatch.md R92). -/
theorem StepCase.overflow_conditions {s t : State} (h : StepCase s t) (hs : s.cause ≠ .stackOverflow)
    (ht : t.cause = .stackOverflow) : s.ip + 1 < s.progLen ∧ s.top = s.capacity := by
  cases h with
  | overflow hi _ hc => exact ⟨hi, hc⟩
  | pastEnd | halt | noImmediate | underflow => cases ht
  | pushc | emit | nop => exact absurd ht hs

/-- Settles O46: each of the `capacity` values on the full stack took two bytes before `ip` (`bytes_used`), and the
overflowing PUSHC stands at `ip` with two more. -/
theorem overflowNeedsALongProgram : Obligations.OverflowNeedsALongProgram := by
  intro s t hinv hr h ht
  obtain ⟨-, hcase⟩ := step_next h
  have hnone : s.cause ≠ .stackOverflow := by simp [hinv.cause_of_running hr]
  obtain ⟨hip, htop⟩ := hcase.overflow_conditions hnone ht
  have hused := hinv.bytes_used
  omega

end Sys2Proof.Machine

/-! PROOFS. The statements about dispatch: the table, PUSHC, EMIT and NOP as instructions and as steps from their bytes,
and runs of no-op bytes. -/

namespace Sys2Proof.Machine

/-! ## No-op bytes, then the halt byte -/

/-- The step over an unregistered byte moves `ip` past it (41_dispatch.md R95). -/
theorem step_of_unnamed {s : State} (hr : s.run = .running) (h : s.ip < s.progLen)
    (ho : isNamedOpcode (s.prog.byte s.ip) = false) : step s = .next (advance 1 s) := by
  obtain ⟨hp, he, hh⟩ := wf_nop_iff.mp (by simpa [Instr.wf] using ho)
  exact step_of_stepCase hr (.nop h hp he hh)

/-- Settles O51, by induction on the no-op bytes: the step over the first leaves the others ahead of the next `ip`. -/
theorem nopsThenHaltEndCleanly : Obligations.NopsThenHaltEndCleanly := by
  intro s bs
  induction bs generalizing s with
  | nil =>
    intro hr _ h
    obtain ⟨⟨hi, ho⟩, -⟩ := holdsAt_cons.mp h
    exact runFor_succ_of_next (step_of_stepCase hr (.halt hi ho)) 0
  | cons b bs ih =>
    intro hr hbs h
    obtain ⟨hb, hbs⟩ := List.forall_mem_cons.mp hbs
    obtain ⟨⟨hi, ho⟩, hrest⟩ := holdsAt_cons.mp h
    have hip : s.ip + (bs.length + 1) = s.ip + 1 + bs.length := by omega
    rw [List.length_cons, runFor_succ_of_next (step_of_unnamed hr hi (ho ▸ hb)), hip]
    exact ih (advance 1 s) hr hbs hrest

/-! ## The dispatch table -/

/-- An entry of the table by its index: the registered handlers stand where they were written, the default elsewhere. -/
theorem getElem_dispatchTable {n : Nat} (h : n < 256) :
    dispatchTable[n] = if 0x65 = n then .emit else if 0x63 = n then .pushc else .nop := by
  simp only [dispatchTable, Vector.getElem_set, Vector.getElem_replicate]

theorem dispatch_unregistered {op : Byte} (hp : op ≠ 0x63#8) (he : op ≠ 0x65#8) : dispatch op = .nop := by
  rw [dispatch, if_neg hp, if_neg he]

/-- Settles O2, by the byte that selects the entry: one of the two registered ones, or any other. -/
theorem dispatchTableIsDispatch : Obligations.DispatchTableIsDispatch := by
  refine ⟨fun op => ?_, rfl, rfl, fun op => dispatch_unregistered⟩
  rw [getElem_dispatchTable]
  by_cases hp : op = 0x63#8
  · rw [hp]
    rfl
  by_cases he : op = 0x65#8
  · rw [he]
    rfl
  · have hpn : 0x63 ≠ op.toNat := fun h => hp (BitVec.eq_of_toNat_eq h.symm)
    have hen : 0x65 ≠ op.toNat := fun h => he (BitVec.eq_of_toNat_eq h.symm)
    rw [dispatch_unregistered hp he, if_neg hen, if_neg hpn]

/-! ## PUSHC -/

/-- Settles O19. -/
theorem pushcCompletes : Obligations.PushcCompletes := fun _ _ => execPushc_room

/-- Settles O20: the immediate's bounds check comes before the push. -/
theorem pushcTraps : Obligations.PushcTraps := fun _ _ => ⟨execPushc_past, execPushc_full⟩

/-- Settles O21: each branch is a case of the step. -/
theorem pushcStep : Obligations.PushcStep := by
  intro s hr hi ho
  split_ifs with hpast hfull
  · exact step_of_stepCase hr (.noImmediate (by omega) ho)
  · exact step_of_stepCase hr (.overflow (Nat.lt_of_not_le hpast) ho hfull)
  · exact step_of_stepCase hr (.pushc (Nat.lt_of_not_le hpast) ho hfull)

/-! ## EMIT -/

/-- The low eight bits of a 32-bit payload are its truncation (41_dispatch.md R94). -/
theorem low8_u32 (k : Byte) (w : Word32) : low8 ⟨k, .u32 w⟩ = .ok (w.setWidth 8) := by
  rw [BitVec.setWidth_eq_extractLsb' (by decide)]
  rfl

/-- The signed 32-bit payload is a pattern, cut like the unsigned one (log 11). -/
theorem low8_s32 (k : Byte) (w : Word32) : low8 ⟨k, .s32 w⟩ = .ok (w.setWidth 8) := low8_u32 k w

/-- EMIT stops where `low8` does. -/
theorem execEmit_low8_error {s : State} {l : List Value} {v : Value} {e : Stop} (h : s.stk = l ++ [v])
    (he : low8 v = .error e) : execEmit s = finish s (.error e) := by
  simp only [execEmit, pop_concat h, bind, Except.bind, he]

/-- Settles O23: `low8` gives the byte for each of the four payload variants, whatever the kind. -/
theorem emitCompletes : Obligations.EmitCompletes := fun k _ _ =>
  ⟨fun _ h => execEmit_concat h rfl, fun _ h => execEmit_concat h rfl,
    fun w h => execEmit_concat h (low8_u32 k w), fun w h => execEmit_concat h (low8_s32 k w)⟩

/-- Settles O24: the pop fails on an empty stack, `low8` on a pointer. -/
theorem emitStops : Obligations.EmitStops := fun _ =>
  ⟨fun h => execEmit_empty (top_eq_zero_iff.mp h), fun _ _ _ h => execEmit_low8_error h rfl⟩

/-- Settles O25: each clause is a case of the step. -/
theorem emitStep : Obligations.EmitStep := fun _ hr hi ho =>
  ⟨fun h => step_of_stepCase hr (.underflow hi ho (top_eq_zero_iff.mp h)),
    fun l v b hs hb => step_of_stepCase hr (.emit hi ho l v b hs hb)⟩

/-! ## NOP -/

/-- Settles O27. -/
theorem nopCompletes : Obligations.NopCompletes := exec_nop

/-- Settles O28. -/
theorem nopStep : Obligations.NopStep := fun _ hr hi hp he hh => step_of_stepCase hr (.nop hi hp he hh)

end Sys2Proof.Machine

/-! PROOFS. The statements about the execution loop: the instruction a step runs, the spec's loop, the transitions out
of `RUNNING`, the course of `ip`, and the end of every run. -/

namespace Sys2Proof.Machine

/-! ## The instruction a step runs -/

theorem fetchInstr_of_decode {s : State} {i : Instr} {rest : List Byte} (h : decode (fetchWindow s) = .ok (i, rest)) :
    fetchInstr s = .ok i := by
  rw [fetchInstr, h]

/-- Settles O8. -/
theorem stepRunsDecodedInstruction : Obligations.StepRunsDecodedInstruction := fun s i rest hr h => by
  rw [step_running hr, fetchInstr_of_decode h]

/-- Bytes that stand at an offset are what the program begins with from there on. -/
theorem drop_programBytes_of_holdsAt {s : State} {a : Nat} {bs : List Byte} (h : s.holdsAt a bs) :
    (programBytes s).drop a = bs ++ (programBytes s).drop (a + bs.length) := by
  induction bs generalizing a with
  | nil => rfl
  | cons b bs ih =>
    obtain ⟨⟨hlt, hb⟩, hrest⟩ := holdsAt_cons.mp h
    have hlen : a + (bs.length + 1) = a + 1 + bs.length := by omega
    rw [drop_programBytes_of_lt hlt, hb, ih hrest, List.length_cons, hlen, List.cons_append]

/-- Settles O9: the bytes ahead begin with the encoding, whatever follows it. -/
theorem stepRunsInstructionAtIp : Obligations.StepRunsInstructionAtIp := fun _ _ hr hi h =>
  step_of_bytesAhead_instr hr hi (drop_programBytes_of_holdsAt h)

/-- Settles O29. -/
theorem haltStopsCleanly : Obligations.HaltStopsCleanly :=
  ⟨exec_halt, fun _ hr hi ho => step_of_stepCase hr (.halt hi ho)⟩

/-! ## The spec's loop -/

theorem loopBody_past {s : State} (h : s.progLen ≤ s.ip) : loopBody s = .error (.raised (.programBounds s.ip)) := by
  rw [loopBody, memRead_outside h]
  rfl

theorem loopBody_halt {s : State} (h : s.ip < s.progLen) (ho : s.prog.byte s.ip = 0x68#8) :
    loopBody s = .ok (haltRun s) := by
  rw [loopBody, memRead_inside h, ho]
  rfl

/-- Past the halt check the loop runs the handler of the opcode (42_execution_loop.md R102, R104). -/
theorem loopBody_dispatch {s : State} (h : s.ip < s.progLen) (ho : s.prog.byte s.ip ≠ 0x68#8) :
    loopBody s = runHandler (dispatch (s.prog.byte s.ip)) s := by
  rw [loopBody, memRead_inside h]
  exact if_neg ho

theorem runHandler_pushc_past {s : State} (h : s.progLen ≤ s.ip + 1) :
    runHandler .pushc s = .error (.raised (.programBounds (s.ip + 1))) := by
  rw [runHandler, fetchImm8, memRead_outside h]
  rfl

/-- PUSHC with the decoded operand is the handler that fetches it, where it is inside the buffer (log 10). -/
theorem execPushc_eq_runHandler {s : State} (h : s.ip + 1 < s.progLen) :
    execPushc (s.prog.byte (s.ip + 1)) s = finish s (runHandler .pushc s) := by
  rw [execPushc, runHandler, fetchImm8, memRead_inside h]
  rfl

theorem execEmit_eq_runHandler (s : State) : execEmit s = finish s (runHandler .emit s) := rfl

theorem execNop_eq_runHandler (op : Byte) (s : State) : execNop op s = finish s (runHandler .nop s) := rfl

/-- In `RUNNING` a step is one iteration of the loop, by the byte at `ip`. -/
theorem step_eq_finish_loopBody {s : State} (hr : s.run = .running) : step s = finish s (loopBody s) := by
  rw [step_running hr]
  rcases Nat.lt_or_ge s.ip s.progLen with hi | hi
  · by_cases hh : s.prog.byte s.ip = 0x68#8
    · rw [fetchInstr_halt hi hh, loopBody_halt hi hh]
      rfl
    rw [loopBody_dispatch hi hh]
    by_cases hp : s.prog.byte s.ip = 0x63#8
    · have hd : dispatch (s.prog.byte s.ip) = .pushc := by rw [hp]; rfl
      rw [hd]
      rcases Nat.lt_or_ge (s.ip + 1) s.progLen with hi' | hi'
      · rw [fetchInstr_pushc hi' hp]
        exact execPushc_eq_runHandler hi'
      · rw [fetchInstr_noImmediate (by omega) hp, runHandler_pushc_past hi']
    by_cases he : s.prog.byte s.ip = 0x65#8
    · have hd : dispatch (s.prog.byte s.ip) = .emit := by rw [he]; rfl
      rw [fetchInstr_emit hi he, hd]
      exact execEmit_eq_runHandler s
    · rw [fetchInstr_nop hi hp he hh, dispatch_unregistered hp he]
      exact execNop_eq_runHandler (s.prog.byte s.ip) s
  · rw [fetchInstr_past hi, loopBody_past hi]

/-- Settles O10, by the FSM state. -/
theorem stepIsTheSpecLoop : Obligations.StepIsTheSpecLoop := by
  intro s
  rw [loopStep]
  cases hr : s.run with
  | halted => exact step_halted hr
  | running => exact step_eq_finish_loopBody hr

/-! ## What becomes of the FSM state and of ip -/

/-- On a byte other than the sentinel a step leaves `run` and `cause`, or stops with a fault
(42_execution_loop.md R98). -/
theorem StepCase.run_cause {s t : State} (h : StepCase s t) (hi : s.ip < s.progLen)
    (hh : s.prog.byte s.ip ≠ 0x68#8) :
    (t.run = s.run ∧ t.cause = s.cause) ∨ (t.run = .halted ∧ t.cause.isFault = true) := by
  cases h with
  | pastEnd h => exact absurd hi (Nat.not_lt.mpr h)
  | halt _ ho => exact absurd ho hh
  | noImmediate | overflow | underflow => exact .inr ⟨rfl, rfl⟩
  | pushc | emit | nop => exact .inl ⟨rfl, rfl⟩

/-- Settles O12: the first two clauses are cases of the step, the third is `StepCase.run_cause`. -/
theorem transitionsOutOfRunning : Obligations.TransitionsOutOfRunning := by
  refine fun s hr => ⟨fun h => step_of_stepCase hr (.pastEnd h),
    fun h ho => step_of_stepCase hr (.halt h ho), fun hi hh t h => ?_⟩
  obtain ⟨-, hcase⟩ := step_next h
  rw [← hr]
  exact hcase.run_cause hi hh

/-- A step stops where it stands, or leaves `run` and moves `ip` forward over bytes inside the buffer
(42_execution_loop.md R106). -/
theorem StepCase.run_ip {s t : State} (h : StepCase s t) :
    (t.run = .halted ∧ t.ip = s.ip) ∨
    (t.run = s.run ∧ s.ip < t.ip ∧ t.ip ≤ s.ip + 2 ∧ t.ip ≤ s.progLen) := by
  cases h with
  | pastEnd | halt | noImmediate | overflow | underflow => exact .inl ⟨rfl, rfl⟩
  | pushc h => exact .inr ⟨rfl, Nat.lt_add_of_pos_right (by decide), Nat.le_refl _, h⟩
  | emit h | nop h => exact .inr ⟨rfl, Nat.lt_succ_self _, Nat.le_succ _, h⟩

/-- Settles O43. -/
theorem ipOnlyMovesForward : Obligations.IpOnlyMovesForward := by
  intro s t h
  obtain ⟨hr, hcase⟩ := step_next h
  rcases hcase.run_ip with ⟨hhalt, hip⟩ | ⟨hrun, hip⟩
  · exact ⟨fun ht => by simp [hhalt] at ht, fun _ => hip⟩
  · exact ⟨fun _ => hip, fun ht => by simp [hrun, hr] at ht⟩

/-! ## A step always has a next state -/

/-- With only character values on the stack one case of the step applies: EMIT meets no pointer
(40_value_stack.md R74). -/
theorem exists_stepCase {s : State} (hch : ∀ v ∈ s.stk, v.isChar) : ∃ t, StepCase s t := by
  rcases Nat.lt_or_ge s.ip s.progLen with hi | hi
  · by_cases hh : s.prog.byte s.ip = 0x68#8
    · exact ⟨_, .halt hi hh⟩
    by_cases hp : s.prog.byte s.ip = 0x63#8
    · by_cases hi' : s.ip + 1 = s.progLen
      · exact ⟨_, .noImmediate hi' hp⟩
      by_cases hc : s.top = s.capacity
      · exact ⟨_, .overflow (by omega) hp hc⟩
      · exact ⟨_, .pushc (by omega) hp hc⟩
    by_cases he : s.prog.byte s.ip = 0x65#8
    · by_cases hs : s.stk = []
      · exact ⟨_, .underflow hi he hs⟩
      · obtain ⟨l, v, b, hl, hb⟩ := exists_concat_low8 hch hs
        exact ⟨_, .emit hi he l v b hl hb⟩
    · exact ⟨_, .nop hi hp he hh⟩
  · exact ⟨_, .pastEnd hi⟩

/-- Settles O42. -/
theorem runningStepHasNextState : Obligations.RunningStepHasNextState := fun _ hinv hr =>
  (exists_stepCase hinv.chars).imp fun _ => step_of_stepCase hr

/-! ## Every run ends -/

/-- A step keeps the stack free of other than character values. -/
theorem StepCase.chars {s t : State} (h : StepCase s t) (hch : ∀ v ∈ s.stk, v.isChar) :
    ∀ v ∈ t.stk, v.isChar := by
  cases h with
  | pastEnd | halt | noImmediate | overflow | underflow | nop => exact hch
  | pushc => exact List.forall_mem_append.mpr ⟨hch, List.forall_mem_singleton.mpr ⟨_, rfl⟩⟩
  | emit _ _ l v b hs => exact fun w hw => hch w (by simp [hs, hw])

/-- The first step halts, or leaves fewer bytes ahead for the run that follows it. -/
theorem exists_runFor_halted {s : State} (hr : s.run = .running) (hch : ∀ v ∈ s.stk, v.isChar) :
    ∃ k t, k ≤ s.progLen - s.ip + 1 ∧ runFor k s = .next t ∧ t.run = .halted := by
  obtain ⟨u, hcase⟩ := exists_stepCase hch
  have hstep := step_of_stepCase hr hcase
  rcases hcase.run_ip with ⟨hhalt, -⟩ | ⟨hrun, hlt, -, hle⟩
  · exact ⟨1, u, Nat.le_add_left 1 _, runFor_succ_of_next hstep 0, hhalt⟩
  · obtain ⟨-, hlen, -⟩ := hcase.config_eq
    obtain ⟨k, t, hk, ht, hhalt⟩ := exists_runFor_halted (hrun.trans hr) (hcase.chars hch)
    exact ⟨k + 1, t, by omega, by rw [runFor_succ_of_next hstep, ht], hhalt⟩
termination_by s.progLen - s.ip
decreasing_by omega

/-- Settles O48. -/
theorem everyRunEnds : Obligations.EveryRunEnds := fun _ hr _ hch => exists_runFor_halted hr hch

end Sys2Proof.Machine

/-! PROOFS. The statements about faults: when the loop raises each of them, what recording one leaves unchanged, and the
info rebuilt from the state after it. -/

namespace Sys2Proof.Machine

/-! ## When each fault is raised -/

/-- When a step raises a fault, and with which info (60_exceptions.md R113, R119). -/
inductive FaultCase (s : State) : Raised → Prop
  | pastEnd (h : s.progLen ≤ s.ip) : FaultCase s (.programBounds s.ip)
  | noImmediate (h : s.ip + 1 = s.progLen) (ho : s.prog.byte s.ip = 0x63#8) :
      FaultCase s (.programBounds (s.ip + 1))
  | overflow (h : s.ip + 1 < s.progLen) (ho : s.prog.byte s.ip = 0x63#8) (hc : s.top = s.capacity) :
      FaultCase s (.stackOverflow s.top)
  | underflow (h : s.ip < s.progLen) (ho : s.prog.byte s.ip = 0x65#8) (hs : s.top = 0) :
      FaultCase s (.stackUnderflow 0)

/-- A raised fault is taken: its case is one of the step. -/
theorem FaultCase.stepCase {s : State} {r : Raised} (h : FaultCase s r) : StepCase s (takeFault r s) := by
  cases h with
  | pastEnd h => exact .pastEnd h
  | noImmediate h ho => exact .noImmediate h ho
  | overflow h ho hc => exact .overflow h ho hc
  | underflow h ho hs => exact .underflow h ho (top_eq_zero_iff.mp hs)

/-- A step that newly records a fault took one that was raised: no other case writes a fault's cause. -/
theorem StepCase.exists_faultCase {s t : State} (h : StepCase s t) (hs : s.cause = .none)
    (ht : t.cause.isFault = true) : ∃ r, FaultCase s r ∧ t = takeFault r s := by
  cases h with
  | pastEnd h => exact ⟨_, .pastEnd h, rfl⟩
  | noImmediate h ho => exact ⟨_, .noImmediate h ho, rfl⟩
  | overflow h ho hc => exact ⟨_, .overflow h ho hc, rfl⟩
  | underflow h ho hs => exact ⟨_, .underflow h ho (top_eq_zero_iff.mpr hs), rfl⟩
  | halt => cases ht
  | pushc | emit | nop => simp [hs, Cause.isFault] at ht

/-- Settles O31: the loop and the step end alike (`step_eq_finish_loopBody`), and a fault is recorded by `takeFault`
alone. -/
theorem faultsArePrecise : Obligations.FaultsArePrecise := by
  refine ⟨fun s r hr h => by rw [step_eq_finish_loopBody hr, h]; rfl, fun s t _ hs h ht => ?_⟩
  obtain ⟨-, hcase⟩ := step_next h
  obtain ⟨r, -, rfl⟩ := hcase.exists_faultCase hs ht
  rfl

/-- A step from cause `NONE` records exactly the cause of the fault that is raised. -/
theorem cause_eq_iff_exists_faultCase {s t : State} (hs : s.cause = .none) (h : step s = .next t) {c : Cause}
    (hc : c.isFault = true) : t.cause = c ↔ ∃ r, FaultCase s r ∧ r.cause = c := by
  obtain ⟨hr, hcase⟩ := step_next h
  constructor
  · rintro rfl
    obtain ⟨r, hfault, rfl⟩ := hcase.exists_faultCase hs hc
    exact ⟨r, hfault, rfl⟩
  · rintro ⟨r, hfault, rfl⟩
    rw [step_of_stepCase hr hfault.stepCase] at h
    cases h
    rfl

/-- Settles O32: one cause at a time, by the cases in which a fault of that cause is raised. -/
theorem whenEachFaultIsRecorded : Obligations.WhenEachFaultIsRecorded := by
  intro s t _ hs h
  have hcause {c : Cause} := cause_eq_iff_exists_faultCase hs h (c := c)
  refine ⟨(hcause rfl).trans ⟨?_, ?_⟩, (hcause rfl).trans ⟨?_, ?_⟩, (hcause rfl).trans ⟨?_, ?_⟩⟩
  · rintro ⟨r, hfault, hc⟩
    cases hfault with
    | underflow hi ho htop => exact ⟨hi, ho, htop⟩
    | pastEnd | noImmediate | overflow => cases hc
  · exact fun ⟨hi, ho, htop⟩ => ⟨_, .underflow hi ho htop, rfl⟩
  · rintro ⟨r, hfault, hc⟩
    cases hfault with
    | overflow hi ho htop => exact ⟨hi, ho, htop⟩
    | pastEnd | noImmediate | underflow => cases hc
  · exact fun ⟨hi, ho, htop⟩ => ⟨_, .overflow hi ho htop, rfl⟩
  · rintro ⟨r, hfault, hc⟩
    cases hfault with
    | pastEnd hi => exact .inl hi
    | noImmediate hi ho => exact .inr ⟨hi, ho⟩
    | overflow | underflow => cases hc
  · rintro (hi | ⟨hi, ho⟩)
    · exact ⟨_, .pastEnd hi, rfl⟩
    · exact ⟨_, .noImmediate hi ho, rfl⟩

/-! ## What the loop raises -/

/-- A sequence of two operations fails where one of them does. -/
theorem bind_error {α β : Type} {x : Except Stop α} {f : α → Except Stop β} {e : Stop}
    (h : (x >>= f) = .error e) : x = .error e ∨ ∃ a, x = .ok a ∧ f a = .error e := by
  rcases x with e' | a
  · cases h
    exact .inl rfl
  · exact .inr ⟨a, rfl, h⟩

theorem memRead_error {s : State} {a : Nat} {e : Stop} (h : memRead s a = .error e) :
    s.progLen ≤ a ∧ e = .raised (.programBounds a) := by
  rcases Nat.lt_or_ge a s.progLen with hi | hi
  · rw [memRead_inside hi] at h
    cases h
  · rw [memRead_outside hi] at h
    exact ⟨hi, (Except.error.inj h).symm⟩

theorem push_error {v : Value} {s : State} {e : Stop} (h : push v s = .error e) :
    s.top = s.capacity ∧ e = .raised (.stackOverflow s.top) := by
  by_cases hc : s.top = s.capacity
  · rw [push_full hc] at h
    exact ⟨hc, (Except.error.inj h).symm⟩
  · rw [push_room hc] at h
    cases h

theorem pop_error {s : State} {e : Stop} (h : pop s = .error e) :
    s.top = 0 ∧ e = .raised (.stackUnderflow 0) := by
  by_cases htop : s.top = 0
  · rw [pop_empty (top_eq_zero_iff.mp htop)] at h
    exact ⟨htop, (Except.error.inj h).symm⟩
  · obtain ⟨l, v, hs⟩ := exists_stk_concat_of_top_ne_zero htop
    rw [pop_concat hs] at h
    cases h

/-- PUSHC fails at the read of its immediate or, that read done, at the push (41_dispatch.md R92). -/
theorem runHandler_pushc_error {s : State} {e : Stop} (h : runHandler .pushc s = .error e) :
    (s.progLen ≤ s.ip + 1 ∧ e = .raised (.programBounds (s.ip + 1))) ∨
    (s.ip + 1 < s.progLen ∧ s.top = s.capacity ∧ e = .raised (.stackOverflow s.top)) := by
  rcases bind_error h with h | ⟨b, hb, h⟩
  · exact .inl (memRead_error h)
  · obtain ⟨hi, -⟩ := memRead_ok_iff.mp hb
    rcases bind_error h with h | ⟨u, -, h⟩
    · exact .inr ⟨hi, push_error h⟩
    · cases h

/-- The only fault EMIT raises is the pop's; a pointer is refused (41_dispatch.md R93, R94). -/
theorem runHandler_emit_raised {s : State} {r : Raised} (h : runHandler .emit s = .error (.raised r)) :
    s.top = 0 ∧ r = .stackUnderflow 0 := by
  rcases bind_error h with h | ⟨⟨v, u⟩, -, h⟩
  · obtain ⟨htop, hr⟩ := pop_error h
    exact ⟨htop, Stop.raised.inj hr⟩
  rcases bind_error h with h | ⟨b, -, h⟩
  · cases low8_error h
  · cases h

/-- Everything the loop can raise, by the fetch and then by the handler of the opcode (42_execution_loop.md R104). -/
theorem loopBody_raised {s : State} {r : Raised} (h : loopBody s = .error (.raised r)) : FaultCase s r := by
  rcases Nat.lt_or_ge s.ip s.progLen with hi | hi
  · by_cases hh : s.prog.byte s.ip = 0x68#8
    · rw [loopBody_halt hi hh] at h
      cases h
    rw [loopBody_dispatch hi hh] at h
    by_cases hp : s.prog.byte s.ip = 0x63#8
    · have hd : dispatch (s.prog.byte s.ip) = .pushc := by rw [hp]; rfl
      rw [hd] at h
      rcases runHandler_pushc_error h with ⟨hi', hr⟩ | ⟨hi', htop, hr⟩
      · cases hr
        exact .noImmediate (by omega) hp
      · cases hr
        exact .overflow hi' hp htop
    by_cases he : s.prog.byte s.ip = 0x65#8
    · have hd : dispatch (s.prog.byte s.ip) = .emit := by rw [he]; rfl
      rw [hd] at h
      obtain ⟨htop, rfl⟩ := runHandler_emit_raised h
      exact .underflow hi he htop
    · rw [dispatch_unregistered hp he] at h
      cases h
  · rw [loopBody_past hi] at h
    cases h
    exact .pastEnd hi

/-! ## The info of a fault -/

/-- Settles O33: the stack faults leave `top` as it was, and a bounds fault read at `ip` exactly when `ip` stands at the
end of the buffer. -/
theorem faultInfoCanBeRebuilt : Obligations.FaultInfoCanBeRebuilt := by
  intro s r hle h
  cases loopBody_raised h with
  | pastEnd hi => exact congrArg some (if_pos (Nat.le_antisymm hle hi))
  | noImmediate hi => exact congrArg some (if_neg (show s.ip ≠ s.progLen by omega))
  | overflow => rfl
  | underflow _ _ htop => exact congrArg some htop

end Sys2Proof.Machine

/-! PROOFS. The statements about reset and about how a run ends: reset from any state and after any run, the invariant
on loading and on reset, and the cause read off the sweep. -/

namespace Sys2Proof.Machine

/-! ## What every step keeps, a run keeps -/

/-- What no step changes is the same at the end of a run. -/
theorem runFor_eq_of_step_eq {α : Type} {f : State → α} (hstep : ∀ {s t}, step s = .next t → f t = f s)
    {n : Nat} {s t : State} (h : runFor n s = .next t) : f t = f s := by
  induction n generalizing s with
  | zero =>
    cases h
    rfl
  | succ n ih =>
    cases hs : step s with
    | next u =>
      rw [runFor_succ_of_next hs] at h
      exact (ih h).trans (hstep hs)
    | fault => simp [runFor, hs] at h
    | refused => simp [runFor, hs] at h

/-! ## Reset -/

/-- Settles O35. -/
theorem resetFromAnyState : Obligations.ResetFromAnyState := fun _ =>
  ⟨rfl, rfl, rfl, rfl, fun _ => rfl, rfl, rfl, rfl, rfl, rfl⟩

/-- What reset leaves depends on the configuration alone, which no step writes. -/
theorem assertReset_eq_of_step {s t : State} (h : step s = .next t) : assertReset t = assertReset s := by
  obtain ⟨hprog, hlen, hcap, -⟩ := configurationNeverChanges s t h
  simp [assertReset, newStack, hprog, hlen, hcap]

/-- Settles O36: every step keeps what reset would leave, and so does a run. -/
theorem resetForgetsTheRun : Obligations.ResetForgetsTheRun := fun _ _ _ =>
  runFor_eq_of_step_eq assertReset_eq_of_step

/-- Reset meets the invariant where the configuration does: nothing else of the state before it is left. -/
theorem assertReset_inv {s : State} (hwf : s.progWf) (hcap : 1 ≤ s.capacity) : (assertReset s).Inv where
  progWf := hwf
  capacity_pos := hcap
  ip_le := Nat.zero_le _
  top_le := Nat.zero_le _
  run_cause := by simp
  chars _ hv := nomatch hv
  bytes_used := Nat.le_refl 0

theorem boot_progWf (n : Nat) (bs : List Byte) : (boot n bs).progWf :=
  hostLoad_progWf bs _

/-- Settles O40: a load ends in a reset, and its buffer is canonical. -/
theorem bootAndResetMeetInvariant : Obligations.BootAndResetMeetInvariant :=
  ⟨fun n bs hn => assertReset_inv (boot_progWf n bs) hn, fun _ h => assertReset_inv h.progWf h.capacity_pos⟩

/-! ## The sweep of the bytes ahead, by the byte at ip -/

theorem sweep_bytesAhead_past {s : State} (h : s.progLen ≤ s.ip) : sweep s.bytesAhead = [] := by
  rw [State.bytesAhead, drop_programBytes_of_le h, sweep]

theorem sweep_bytesAhead_noImmediate {s : State} (h : s.ip + 1 = s.progLen) (ho : s.prog.byte s.ip = 0x63#8) :
    sweep s.bytesAhead = [.missingImmediate] := by
  rw [State.bytesAhead, drop_programBytes_of_lt (by omega), drop_programBytes_of_le h.ge, ho]
  rfl

theorem sweep_bytesAhead_pushc {s : State} (h : s.ip + 1 < s.progLen) (ho : s.prog.byte s.ip = 0x63#8) :
    sweep s.bytesAhead =
      .instr (.pushc (s.prog.byte (s.ip + 1))) :: sweep ((programBytes s).drop (s.ip + 2)) := by
  rw [State.bytesAhead, drop_programBytes_of_lt (by omega), drop_programBytes_of_lt h, ho]
  exact sweep_encode_append (i := .pushc _) rfl _

theorem sweep_bytesAhead_oneByte {s : State} (h : s.ip < s.progLen) (ho : s.prog.byte s.ip ≠ 0x63#8) :
    sweep s.bytesAhead =
      .instr (oneByteInstr (s.prog.byte s.ip)) :: sweep ((programBytes s).drop (s.ip + 1)) := by
  rw [State.bytesAhead, drop_programBytes_of_lt h, sweep_oneByte ho]

/-! ## How a run ends -/

/-- The cause with which the run of a state ends: the recorded one in `HALTED`, in `RUNNING` the one the sweep of the
bytes ahead tells (70_reset_and_hazards.md R139). -/
def State.endCause (s : State) : Cause :=
  match s.run with
  | .halted => s.cause
  | .running => sweepCause s.capacity s.top (sweep s.bytesAhead)

theorem endCause_halted {s : State} (h : s.run = .halted) : s.endCause = s.cause := by
  rw [State.endCause, h]

theorem endCause_running {s : State} (h : s.run = .running) :
    s.endCause = sweepCause s.capacity s.top (sweep s.bytesAhead) := by
  rw [State.endCause, h]

/-- A step executes the first item of the sweep as `sweepCause` reads it. -/
theorem endCause_eq_of_step {s t : State} (h : step s = .next t) : t.endCause = s.endCause := by
  obtain ⟨hr, hcase⟩ := step_next h
  rw [endCause_running hr]
  cases hcase with
  | pastEnd hi =>
    rw [sweep_bytesAhead_past hi]
    rfl
  | halt hi ho =>
    rw [sweep_bytesAhead_oneByte hi (by simp [ho]), ho]
    rfl
  | noImmediate hi ho =>
    rw [sweep_bytesAhead_noImmediate hi ho]
    rfl
  | overflow hi ho hc =>
    rw [sweep_bytesAhead_pushc hi ho, sweepCause, if_pos hc]
    rfl
  | pushc hi ho hc =>
    have htop : State.top { s with stk := s.stk ++ [charValue (s.prog.byte (s.ip + 1))] } = s.top + 1 :=
      top_of_stk_concat rfl
    rw [sweep_bytesAhead_pushc hi ho, sweepCause, if_neg hc, ← htop]
    exact endCause_running hr
  | underflow hi ho hs =>
    rw [sweep_bytesAhead_oneByte hi (by simp [ho]), ho, top_eq_zero_iff.mpr hs]
    rfl
  | emit hi ho l v b hs =>
    rw [sweep_bytesAhead_oneByte hi (by simp [ho]), ho, top_of_stk_concat hs]
    exact endCause_running hr
  | nop hi hp he hh =>
    rw [sweep_bytesAhead_oneByte hi hp, oneByteInstr_nop (wf_nop_iff.mpr ⟨hp, he, hh⟩), sweepCause]
    exact endCause_running hr

/-- Settles O49: the run ends (`exists_runFor_halted`), and no step of it changes the cause it ends with. -/
theorem sweepTellsHowTheRunEnds : Obligations.SweepTellsHowTheRunEnds := by
  intro s hr hch
  obtain ⟨k, t, -, hrun, hhalt⟩ := exists_runFor_halted hr hch
  have hend := runFor_eq_of_step_eq endCause_eq_of_step hrun
  rw [endCause_halted hhalt, endCause_running hr] at hend
  exact ⟨k, t, hrun, hhalt, hend⟩

end Sys2Proof.Machine
